-- ==== Sys2Proof/Word.lean ====
section
/-! DEFINITION. The two word types of the unit: the byte every data value is (R67) and the 16-bit
vector of the two-byte operands (R48) and of `FINFO` (R25). -/

namespace Sys2Proof

/-- A data value: a stack entry, a local variable, a constant, a byte of the instruction stream
(00_scope.md R11, `XLEN` = 8). -/
abbrev Byte := BitVec 8

/-- A 16-bit vector: `offset16` and `index16` (R48), and `FINFO` (R25). -/
abbrev Half := BitVec 16

end Sys2Proof
end

