-- ==== Sys2Proof/Config.lean ====
section
/-! DEFINITION. The implementation parameters of 00_scope.md R5. They are fixed for a unit and are
no part of its state (R13). There is no free value in this hardware (R10). -/

namespace Sys2Proof

/-- The parameters a model takes as configuration (R5). `XLEN` is 8, fixed, and is the width of
`Byte`. `CP_LEN` and `CODE_LEN` are set by the image at load and are the lengths of the two stores
that State holds. The underflow and the unsupported-opcode policy have the one value R5 gives them
(a fatal precise fault): the source does not determine the other. -/
structure Config where
  /-- `LOCALS_SIZE`: an access to slot `i` is legal if and only if `i < localsSize` (R17). -/
  localsSize : Nat
  /-- `STACK_DEPTH`: `none` is the source's "unbounded", `some d` a stack of `d` entries (R19). -/
  stackDepth : Option Nat
  /-- `PC_WIDTH`: a unit loads a program whose length fits in `pc`, and then `pc` and `FPC` fit in
  `pcWidth` bits (R14, R24, R114). -/
  pcWidth : Nat
  deriving DecidableEq, Repr

/-- This hardware: 1000 local slots, an unbounded stack, a 16-bit program counter (R5). -/
def Config.unit : Config := { localsSize := 1000, stackDepth := none, pcWidth := 16 }

/-- The longest instruction stream whose length `pc` can hold: `2^PC_WIDTH - 1` (R114). -/
def Config.maxCodeLen (c : Config) : Nat := 2 ^ c.pcWidth - 1

end Sys2Proof
end

