-- ==== Sys2Proof/Syntax.lean ====
section
/-! DEFINITION. The instructions: one constructor per row of spec/opcode_table.json, in the order of
R50, each with the operands R49 assembles from its inline bytes. -/

namespace Sys2Proof

/-- An instruction of the unit with its operands (30_encoding.md R46 to R50). -/
inductive Instr where
  | nop
  | bipush (imm8 : Byte)
  | ldcW (index16 : Half)
  | iload (index8 : Byte)
  | istore (index8 : Byte)
  | pop
  | dup
  | swap
  | iadd
  | isub
  | iand
  | ior
  | iinc (index8 imm8 : Byte)
  | ifeq (offset16 : Half)
  | iflt (offset16 : Half)
  | ifIcmpeq (offset16 : Half)
  | goto (offset16 : Half)
  | ireturn
  | invokevirtual
  /-- The table's catch-all row: an opcode byte that none of the 19 named rows matches (R91). -/
  | unlisted (opcode : Byte)
  deriving DecidableEq, Repr

end Sys2Proof
end

