-- ==== Sys2Proof/Machine/State.lean ====
section
/-! DEFINITION. The architectural state (10_state.md R13), its value after reset (R28), the causes
of the unit's own faults (R94), and the reasons for which the MODEL stops. -/

namespace Sys2Proof.Machine

/-- `STATUS` (R22). The reserved value 3 is never produced by a loaded unit and has no constructor
(93_implementation_defined.md S1, log 13). -/
inductive Status where
  | running
  | done
  | fault
  deriving DecidableEq, Repr

/-- What a faulting step reports in `CAUSE`: a cause of R94, with the kind of R96 when it is an
OutOfBoundsAccess. -/
inductive FaultCause where
  | stackUnderflow
  | operandFetch
  | branchTarget
  | localIndex
  | constIndex
  | unsupportedOpcode
  | stackOverflow
  deriving DecidableEq, Repr

/-- The complete architectural state: the nine items of R13, and nothing else. -/
structure State where
  /-- The program counter, "an unsigned integer index" (R14), as the natural number that R5 lets a
  model take; a loaded unit keeps it below `2^PC_WIDTH` (log 4). -/
  pc : Nat
  /-- `LV`, the local-variable array: the slots that do not hold zero, with their bytes, by rising
  index; a slot not listed holds zero, its reset value (R16, R29, log 6). -/
  lv : List Host.Cell
  /-- `S`, the operand stack, the TOP FIRST; its length is `sp` (R18, log 5). -/
  stack : List Byte
  /-- `CP`, the constant pool, entry 0 first; its length is `CP_LEN` (R20, log 7). -/
  cp : List Byte
  /-- `CODE`, the instruction stream, byte 0 first; its length is `CODE_LEN` (R21, log 7). -/
  code : List Byte
  /-- `STATUS`, the run state (R22). -/
  status : Status
  /-- `CAUSE`, the fault cause: code in bits 2:0, kind in bits 4:3 (R23). -/
  cause : BitVec 5
  /-- `FPC`, the fault program counter, as `pc` (R24, log 4). -/
  fpc : Nat
  /-- `FINFO`, the fault information (R25). -/
  finfo : Half
  deriving DecidableEq, Repr

/-- The state right after reset (R28, R110) with the smallest legal image, the one byte 0x00: an
empty pool and an empty instruction stream, so that the run is over at once (R117). `State.load`
gives the state after a reset with any image (log 1). -/
def State.reset : State :=
  { pc := 0, lv := [], stack := [], cp := [], code := [],
    status := .done, cause := 0, fpc := 0, finfo := 0 }

/-- Why the MODEL stops. The unit's own faults are not among these: they are next states (R100,
log 2). -/
inductive Fault where
  /-- A step was asked of a unit that is DONE. Raised by `step` only; safe: the spec says that no
  step is enabled there (R22, R117). -/
  | stepAfterDone
  /-- A step was asked of a unit in FAULT. Raised by `step` only; safe: the spec says that no step
  is enabled there (R22, R103). -/
  | stepAfterFault
  /-- A RUNNING unit whose `pc` designates no byte of `CODE`. Raised by `step` only; safe: R116
  says that no run reaches such a state, and the model keeps it so (log 3). -/
  | opcodeFetchOutsideCode
  deriving DecidableEq, Repr

/-- Why the model gives something no meaning. -/
inductive Refusal where
  /-- An instruction with no meaning yet. Raised by `exec`'s refused arms only; safe. There is none. -/
  | notModelled (mnemonic : String)
  /-- The loader's rejection of an image that is empty or shorter than its declared pool (R99, R112,
  R113). Raised by `State.load` only; safe: no unit state exists then. -/
  | truncatedInput
  /-- An image whose instruction stream is too long for `pc`, outside the spec's domain (R114).
  Raised by `State.load` only; safe (log 8). -/
  | imageTooLong
  deriving DecidableEq, Repr

end Sys2Proof.Machine
end

