-- ==== Sys2Proof/Machine/Operands.lean ====
section
/-! DEFINITION. How the semantics reads the operands of R49, and the signed and unsigned readings of
00_scope.md R11. No operand is scaled or shifted. -/

namespace Sys2Proof.Machine

/-- `signed(v)`: the two's-complement reading of a data value, in -128..127 (R11). -/
def signed (v : Byte) : Int := if v.toNat < 128 then v.toNat else (v.toNat : Int) - 256

/-- `u8(n)`: the byte whose unsigned reading is `n mod 256` (R11). -/
def u8 (n : Int) : Byte := BitVec.ofInt 8 n

/-- `zext_8(b1)`: the slot index of ILOAD, ISTORE and IINC, 0..255 (R49, R76). -/
def localIndex (index8 : Byte) : Nat := index8.toNat

/-- `sext_16({b1, b2})`: the branch offset in bytes, in -32768..32767 (R49, R81). -/
def branchOffset (offset16 : Half) : Int :=
  if offset16.toNat < 32768 then offset16.toNat else (offset16.toNat : Int) - 65536

/-- `zext_16({b1, b2})`: the constant-pool index of LDC_W, 0..65535 (R49). -/
def constIndex (index16 : Half) : Nat := index16.toNat

end Sys2Proof.Machine
end

