-- ==== Sys2Proof/Machine/Ops.lean ====
section
/-! DEFINITION. The named operations over the state that the meanings share: the read of a store,
the one description of raising a fault (60_exceptions.md R100), the checks `need`, `room` and `slot`
(R60, R76), the two writes of `pc` (R15), the end of a run (R117) and the result (R118).

There is no return from a fault: R103 gives the unit no handler and no trap return, and only reset
(`State.load`) leaves the FAULT state. -/

namespace Sys2Proof.Machine

/-- What a meaning answers. Every meaning of this unit answers a next state. -/
abbrev Result := Host.Outcome State Fault Refusal

/-! ### The names of the spec for parts of the state -/

/-- `sp`, the depth of the operand stack (R18). -/
abbrev State.sp (s : State) : Nat := s.stack.length

/-- `CP_LEN` (R20). -/
abbrev State.cpLen (s : State) : Nat := s.cp.length

/-- `CODE_LEN` (R21). -/
abbrev State.codeLen (s : State) : Nat := s.code.length

/-- The register `pc` as its `PC_WIDTH` bits (R14). -/
def State.pcBits (c : Config) (s : State) : BitVec c.pcWidth := BitVec.ofNat c.pcWidth s.pc

/-- The register `FPC` as its `PC_WIDTH` bits (R24). -/
def State.fpcBits (c : Config) (s : State) : BitVec c.pcWidth := BitVec.ofNat c.pcWidth s.fpc

/-- `S[k]`, counted from the bottom: `S[0]` was pushed first, `S[sp-1]` is the top (R11). -/
def State.stackEntry (s : State) (k : Nat) : Option Byte := s.stack.reverse[k]?

/-- `STATUS` as its two bits (R22). -/
def Status.word (st : Status) : BitVec 2 :=
  match st with
  | .running => 0
  | .done => 1
  | .fault => 2

/-! ### The read-only stores (20_memory.md R31, R33) -/

/-- A read-only store of bytes, entry 0 first, as long as its list (log 7). -/
abbrev Store := List Byte

/-- `MemRead(space, i, 1)`: entry `i`, defined when it exists (R11, R31, R33). -/
def Store.byte (m : Store) (i : Nat) : Option Byte := m[i]?

/-- The bytes of a store from `addr` to its end. -/
def Store.bytesFrom (m : Store) (addr : Nat) : List Byte := m.drop addr

/-- The store with `bytes` laid at `addr`, zeros standing for the bytes below `addr` that it lacks.
No instruction does this (R36); it is the load that `withFetchWord` stands for (log 11). -/
def Store.place (m : Store) (addr : Nat) (bytes : List Byte) : Store :=
  m.take addr ++ List.replicate (addr - m.length) 0#8 ++ bytes ++ m.drop (addr + bytes.length)

/-! ### The register file (10_state.md R16) -/

/-- The one space that instructions write by index, as pairs of an index and the byte there. -/
abbrev Memory := List Host.Cell

/-- The canonical form: indices strictly rising and no entry equal to what an unlisted index reads
as, so that equal contents are equal lists (log 6). -/
abbrev Memory.wf (m : Memory) : Bool :=
  decide (m.Pairwise fun c d => c.1 < d.1) && m.all fun c => c.2 != 0#8

/-- The byte at an index; an unlisted index reads as zero, its reset value (R29). -/
def Memory.read (m : Memory) (i : Nat) : Byte :=
  match m with
  | [] => 0#8
  | (k, v) :: rest => if k = i then v else Memory.read rest i

/-- The memory with no entry at an index. -/
def Memory.erase (m : Memory) (i : Nat) : Memory := m.filter fun c => c.1 != i

/-- The memory with an entry put before the first entry of a higher index. -/
def Memory.insert (m : Memory) (i : Nat) (v : Byte) : Memory :=
  match m with
  | [] => [(i, v)]
  | (k, w) :: rest => if i < k then (i, v) :: (k, w) :: rest else (k, w) :: Memory.insert rest i v

/-- The memory after a write of one byte: a zero is held by listing nothing. -/
def Memory.write (m : Memory) (i : Nat) (v : Byte) : Memory :=
  if v = 0#8 then Memory.erase m i else Memory.insert (Memory.erase m i) i v

/-- `LV[i]`. -/
def State.readLocal (s : State) (index8 : Byte) : Byte := Memory.read s.lv (localIndex index8)

/-- `LV[i] <- v`. -/
def State.writeLocal (s : State) (index8 v : Byte) : State :=
  { s with lv := Memory.write s.lv (localIndex index8) v }

/-! ### The writes of the other fields -/

/-- The stack after an instruction's pops and pushes (R121). -/
def State.setStack (s : State) (stack : List Byte) : State := { s with stack := stack }

/-- `pc <- t` (R15). -/
def State.setPc (s : State) (t : Nat) : State := { s with pc := t }

/-- `STATUS <- st` (R22). -/
def State.setStatus (s : State) (st : Status) : State := { s with status := st }

/-- `pc <- pc + len`, the fixed increment by the instruction's encoded length (R15). -/
def State.advance (s : State) (len : Nat) : State := s.setPc (s.pc + len)

/-! ### Taking a fault (60_exceptions.md R94 to R100) -/

/-- `CAUSE.code`, bits 2:0 (R94). -/
def FaultCause.code (f : FaultCause) : BitVec 3 :=
  match f with
  | .stackUnderflow => 1
  | .operandFetch | .branchTarget | .localIndex | .constIndex => 2
  | .unsupportedOpcode => 3
  | .stackOverflow => 4

/-- `CAUSE.kind`, bits 4:3: which container an OutOfBoundsAccess missed, 0 for every other code
(R23, R96). -/
def FaultCause.kind (f : FaultCause) : BitVec 2 :=
  match f with
  | .operandFetch => 0
  | .branchTarget => 1
  | .localIndex => 2
  | .constIndex => 3
  | .stackUnderflow | .unsupportedOpcode | .stackOverflow => 0

/-- The five bits of `CAUSE` (R23). -/
def FaultCause.word (f : FaultCause) : BitVec 5 := f.kind ++ f.code

/-- Fault entry: exactly the writes of R100 and no others. -/
def State.raise (s : State) (f : FaultCause) (info : Half) : State :=
  { s with status := .fault, cause := f.word, fpc := s.pc, finfo := info }

/-- `raise <Fault>(info)`: the step ends in the faulted state, which is a next state. -/
def trap (s : State) (f : FaultCause) (info : Half) : Result := .next (s.raise f info)

/-! ### The checks (40_stack_const.md R60, 42_locals.md R76) -/

/-- `need(1)`, then the top `a` and the entries below it. -/
def needOne (s : State) (k : Byte → List Byte → Result) : Result :=
  match s.stack with
  | a :: below => k a below
  | [] => trap s .stackUnderflow 0

/-- `need(2)`, then the top `a`, the entry `b` below it, and the entries below those (R71). -/
def needTwo (s : State) (k : Byte → Byte → List Byte → Result) : Result :=
  match s.stack with
  | a :: b :: below => k a b below
  | [_] => trap s .stackUnderflow 1
  | [] => trap s .stackUnderflow 0

/-- Whether `n` more entries fit on a stack of depth `sp` (R19, R60). -/
def fits (c : Config) (sp n : Nat) : Bool :=
  match c.stackDepth with
  | none => true
  | some depth => decide (sp + n ≤ depth)

/-- `room(1)`, for an instruction that grows the stack by one (R60, R98). -/
def room (c : Config) (s : State) (k : Result) : Result :=
  if fits c s.sp 1 then k else trap s .stackOverflow 0

/-- `slot(i)` (R76). -/
def slot (c : Config) (index8 : Byte) (s : State) (k : Result) : Result :=
  if localIndex index8 < c.localsSize then k
  else trap s .localIndex (BitVec.ofNat 16 (localIndex index8))

/-- The target of a taken branch: it counts from the index of the branch's own opcode byte, on
unbounded integers (R82). -/
def State.branchTarget (s : State) (offset16 : Half) : Int := s.pc + branchOffset offset16

/-- Branch resolution (R82). A target in 0..CODE_LEN is written together with the stack the branch
leaves; any other faults and leaves the stack as it was (R84). -/
def branchTo (s : State) (offset16 : Half) (stack : List Byte) : Result :=
  if 0 ≤ s.branchTarget offset16 ∧ s.branchTarget offset16 ≤ s.codeLen then
    .next ((s.setStack stack).setPc (s.branchTarget offset16).toNat)
  else trap s .branchTarget offset16

/-! ### The end of a run (70_reset_and_hazards.md R116 to R118) -/

/-- The last line of the step: `if no fault was raised and pc = CODE_LEN then STATUS <- DONE`
(R116). -/
def State.finish (s : State) : State :=
  if s.status = .running ∧ s.pc = s.codeLen then s.setStatus .done else s

/-- The result of a run: the stack read out top first when the unit is DONE (R118), and nothing
otherwise (R104). -/
def State.result (s : State) : Option (List Byte) :=
  match s.status with
  | .done => some s.stack
  | .running | .fault => none

end Sys2Proof.Machine
end

