-- ==== Sys2Proof/Machine/Alu.lean ====
section
/-! DEFINITION. The signed 8-bit ALU (41_alu.md R67 to R71) and its instructions (R72 to R75). In
each, `a` is the top, popped first, and stands on the left (R71). -/

namespace Sys2Proof.Machine

/-- Addition, exact and then narrowed: it wraps, with no carry and no trap (R67, R68). -/
def add8 (x y : Byte) : Byte := u8 ((x.toNat : Int) + y.toNat)

/-- Subtraction, exact and then narrowed (R69). -/
def sub8 (x y : Byte) : Byte := u8 ((x.toNat : Int) - y.toNat)

/-- Bit-by-bit AND (R70). -/
def and8 (x y : Byte) : Byte := x &&& y

/-- Bit-by-bit OR (R70). -/
def or8 (x y : Byte) : Byte := x ||| y

/-- What the four ALU instructions share: pop `a`, pop `b`, push `f a b`, `pc <- pc + 1` (R121). -/
def binary (f : Byte → Byte → Byte) (s : State) : Result :=
  needTwo s fun a b below => .next ((s.setStack (f a b :: below)).advance 1)

/-- IADD: `a + b`, wrapping (R72). -/
def execIadd (s : State) : Result := binary add8 s

/-- ISUB: `a - b`, the top minus the entry below it (R75). -/
def execIsub (s : State) : Result := binary sub8 s

/-- IAND: `a & b` (R73). -/
def execIand (s : State) : Result := binary and8 s

/-- IOR: `a | b` (R74). -/
def execIor (s : State) : Result := binary or8 s

end Sys2Proof.Machine
end

