-- ==== Sys2Proof/Machine/Flags.lean ====
section
/-! DEFINITION. There are no flags, condition codes or predicate registers (10_state.md R26): State
holds none and no instruction writes one. What stands in their place are the ALU's three tests,
which exist only inside the step of the branch that uses them (43_branch.md R83). -/

namespace Sys2Proof.Machine

/-- `zero(a)`: all eight bits of `a` are 0 (R83). -/
def zeroTest (a : Byte) : Bool := a == 0#8

/-- `neg(a)`: bit 7 of `a` is 1 (R83). -/
def negTest (a : Byte) : Bool := a.getLsbD 7

/-- `eq(a, b)`: the two bytes are equal in all eight bits (R83). -/
def eqTest (a b : Byte) : Bool := a == b

end Sys2Proof.Machine
end

