-- ==== Sys2Proof/Machine/Branch.lean ====
section
/-! DEFINITION. The branch instructions (43_branch.md R85 to R88), over the branch resolution of R82
and the tests of R83. -/

namespace Sys2Proof.Machine

/-- What the conditional branches share once their operands are popped, leaving `below`: the
resolved target if the condition holds, else `pc <- pc + 3` with the offset neither used nor
checked (R84). -/
def branchIf (taken : Bool) (s : State) (offset16 : Half) (below : List Byte) : Result :=
  if taken then branchTo s offset16 below else .next ((s.setStack below).advance 3)

/-- GOTO: unconditional branch; the stack is not touched (R85). -/
def execGoto (offset16 : Half) (s : State) : Result := branchTo s offset16 s.stack

/-- IFEQ: pop one value, branch if it is zero (R86). -/
def execIfeq (offset16 : Half) (s : State) : Result :=
  needOne s fun a below => branchIf (zeroTest a) s offset16 below

/-- IFLT: pop one value, branch if it is negative (R87). -/
def execIflt (offset16 : Half) (s : State) : Result :=
  needOne s fun a below => branchIf (negTest a) s offset16 below

/-- IF_ICMPEQ: pop two values, branch if they are equal (R88). -/
def execIfIcmpeq (offset16 : Half) (s : State) : Result :=
  needTwo s fun a b below => branchIf (eqTest a b) s offset16 below

end Sys2Proof.Machine
end

