-- ==== Sys2Proof/Machine/Locals.lean ====
section
/-! DEFINITION. The local-variable instructions, the only ones that reach `LV` (42_locals.md R76 to
R79). A `run…` meaning takes the parameters of the unit; its `exec…` is the same on this hardware. -/

namespace Sys2Proof.Machine

/-- IINC on a unit with parameters `c`: the sum wraps like IADD's (R77). -/
def runIinc (c : Config) (index8 imm8 : Byte) (s : State) : Result :=
  slot c index8 s
    (.next ((s.writeLocal index8 (add8 (s.readLocal index8) imm8)).advance 3))

/-- IINC: add a signed byte immediate to a local variable (R77). -/
def execIinc (index8 imm8 : Byte) (s : State) : Result := runIinc Config.unit index8 imm8 s

/-- ILOAD on a unit with parameters `c`: the index is checked before the room (R78, R101). -/
def runIload (c : Config) (index8 : Byte) (s : State) : Result :=
  slot c index8 s
    (room c s (.next ((s.setStack (s.readLocal index8 :: s.stack)).advance 2)))

/-- ILOAD: push a local variable (R78). -/
def execIload (index8 : Byte) (s : State) : Result := runIload Config.unit index8 s

/-- ISTORE on a unit with parameters `c`: the stack is checked before the index (R79, R101). -/
def runIstore (c : Config) (index8 : Byte) (s : State) : Result :=
  needOne s fun a below =>
    slot c index8 s (.next (((s.writeLocal index8 a).setStack below).advance 2))

/-- ISTORE: pop the top of the stack into a local variable (R79). -/
def execIstore (index8 : Byte) (s : State) : Result := runIstore Config.unit index8 s

end Sys2Proof.Machine
end

