-- ==== Sys2Proof/Machine/StackConst.lean ====
section
/-! DEFINITION. The constant and stack-manipulation instructions (40_stack_const.md R61 to R66). A
`run…` meaning takes the parameters of the unit; its `exec…` is the same on this hardware. -/

namespace Sys2Proof.Machine

/-- BIPUSH on a unit with parameters `c` (R61). -/
def runBipush (c : Config) (imm8 : Byte) (s : State) : Result :=
  room c s (.next ((s.setStack (imm8 :: s.stack)).advance 2))

/-- BIPUSH: push a byte immediate (R61). -/
def execBipush (imm8 : Byte) (s : State) : Result := runBipush Config.unit imm8 s

/-- DUP on a unit with parameters `c`: underflow is checked before overflow (R62). -/
def runDup (c : Config) (s : State) : Result :=
  needOne s fun a below => room c s (.next ((s.setStack (a :: a :: below)).advance 1))

/-- DUP: duplicate the top of the stack (R62). -/
def execDup (s : State) : Result := runDup Config.unit s

/-- LDC_W on a unit with parameters `c`: the index is checked before the room (R63, R101). -/
def runLdcW (c : Config) (index16 : Half) (s : State) : Result :=
  match Store.byte s.cp (constIndex index16) with
  | none => trap s .constIndex index16
  | some v => room c s (.next ((s.setStack (v :: s.stack)).advance 3))

/-- LDC_W: push a constant-pool entry (R63). -/
def execLdcW (index16 : Half) (s : State) : Result := runLdcW Config.unit index16 s

/-- NOP: only the program counter moves (R64). -/
def execNop (s : State) : Result := .next (s.advance 1)

/-- POP: discard the top of the stack (R65). -/
def execPop (s : State) : Result :=
  needOne s fun _ below => .next ((s.setStack below).advance 1)

/-- SWAP: exchange the two top entries (R66). -/
def execSwap (s : State) : Result :=
  needTwo s fun a b below => .next ((s.setStack (b :: a :: below)).advance 1)

end Sys2Proof.Machine
end

