-- ==== Sys2Proof/Machine/Unimplemented.lean ====
section
/-! DEFINITION. The opcodes with no semantics (44_unimplemented.md R89 to R91): each takes the fault
UnsupportedOpcode with its opcode byte in `FINFO`, and nothing else changes (R97). -/

namespace Sys2Proof.Machine

/-- `raise UnsupportedOpcode(opcode)` (R97). -/
def unsupported (opcode : Byte) (s : State) : Result :=
  trap s .unsupportedOpcode (opcode.setWidth 16)

/-- IRETURN, opcode 0xAC: no return and no halt (R90). -/
def execIreturn (s : State) : Result := unsupported 0xAC s

/-- INVOKEVIRTUAL, opcode 0xB6: no call (R89). -/
def execInvokevirtual (s : State) : Result := unsupported 0xB6 s

/-- Every other opcode value (R91). -/
def execUnlisted (opcode : Byte) (s : State) : Result := unsupported opcode s

end Sys2Proof.Machine
end

