-- ==== Sys2Proof/Machine/Dispatch.lean ====
section
/-! DEFINITION. The dispatch: one arm per constructor of Instr, in the order of R50. -/

namespace Sys2Proof.Machine

/-- The meaning of an instruction once it is decoded and all its operand bytes are fetched (R60). -/
def exec (i : Instr) (s : State) : Host.Outcome State Fault Refusal :=
  match i with
  | .nop => Sys2Proof.Machine.execNop s
  | .bipush imm8 => Sys2Proof.Machine.execBipush imm8 s
  | .ldcW index16 => Sys2Proof.Machine.execLdcW index16 s
  | .iload index8 => Sys2Proof.Machine.execIload index8 s
  | .istore index8 => Sys2Proof.Machine.execIstore index8 s
  | .pop => Sys2Proof.Machine.execPop s
  | .dup => Sys2Proof.Machine.execDup s
  | .swap => Sys2Proof.Machine.execSwap s
  | .iadd => Sys2Proof.Machine.execIadd s
  | .isub => Sys2Proof.Machine.execIsub s
  | .iand => Sys2Proof.Machine.execIand s
  | .ior => Sys2Proof.Machine.execIor s
  | .iinc index8 imm8 => Sys2Proof.Machine.execIinc index8 imm8 s
  | .ifeq offset16 => Sys2Proof.Machine.execIfeq offset16 s
  | .iflt offset16 => Sys2Proof.Machine.execIflt offset16 s
  | .ifIcmpeq offset16 => Sys2Proof.Machine.execIfIcmpeq offset16 s
  | .goto offset16 => Sys2Proof.Machine.execGoto offset16 s
  | .ireturn => Sys2Proof.Machine.execIreturn s
  | .invokevirtual => Sys2Proof.Machine.execInvokevirtual s
  | .unlisted opcode => Sys2Proof.Machine.execUnlisted opcode s

end Sys2Proof.Machine
end

