-- ==== Sys2Proof/WellFormed.lean ====
section
/-! DEFINITION. Which instructions are well-formed. Every operand has exactly the width of its
encoding, and any operand value is legal (R55); the one check is that `unlisted` carries a byte that
no named row of R50 has. -/

namespace Sys2Proof

/-- The 19 opcode values R50 names, in its order. -/
def namedOpcodes : List Byte :=
  [0x00#8, 0x10#8, 0x13#8, 0x15#8, 0x36#8, 0x57#8, 0x59#8, 0x5F#8, 0x60#8, 0x64#8,
   0x7E#8, 0x80#8, 0x84#8, 0x99#8, 0x9B#8, 0x9F#8, 0xA7#8, 0xAC#8, 0xB6#8]

/-- `unlisted b` stands for one of the 237 other byte values only (R50, R53). -/
def Instr.wf (i : Instr) : Bool :=
  match i with
  | .unlisted b => !namedOpcodes.contains b
  | .nop | .bipush _ | .ldcW _ | .iload _ | .istore _ | .pop | .dup | .swap | .iadd | .isub
  | .iand | .ior | .iinc _ _ | .ifeq _ | .iflt _ | .ifIcmpeq _ | .goto _ | .ireturn
  | .invokevirtual => true

end Sys2Proof
end

