-- ==== Sys2Proof/Decode.lean ====
section
/-! DEFINITION. The decoder and the encoder, both from the opcode map of 30_encoding.md R50 and the
formats F1, F2 and F3 of R46 to R48. -/

namespace Sys2Proof

/-- `{b1, b2}`: the 16-bit value with `b1` its high byte (R11, R35). -/
def be16 (b1 b2 : Byte) : Half := b1 ++ b2

/-- The byte at the lower index of a two-byte operand (R35). -/
def hiByte (h : Half) : Byte := h.extractLsb' 8 8

/-- The byte at the higher index of a two-byte operand (R35). -/
def loByte (h : Half) : Byte := h.extractLsb' 0 8

/-- Why the bytes from `pc` on are no whole instruction. -/
inductive DecodeError where
  /-- No byte at all: the opcode fetch found the end of the stream. -/
  | noOpcode
  /-- `n` operand bytes are cut off by the end of the stream, `n` is 1 or 2 (R31, R96). -/
  | missingOperands (n : Nat)
  deriving DecidableEq, Repr

/-- The format of an opcode, holding how its inline bytes become an instruction (R46 to R49). -/
inductive Format where
  | f1 (instr : Instr)
  | f2 (make : Byte → Instr)
  | f3 (make : Byte → Byte → Instr)

/-- The opcode map of R50. The opcode is the whole of byte 0. An opcode with no semantics has
format F1: no operand byte is fetched before it faults (R50, R51). -/
def formatOf (opcode : Byte) : Format :=
  match opcode with
  | 0x00#8 => .f1 .nop
  | 0x10#8 => .f2 fun b1 => .bipush b1
  | 0x13#8 => .f3 fun b1 b2 => .ldcW (be16 b1 b2)
  | 0x15#8 => .f2 fun b1 => .iload b1
  | 0x36#8 => .f2 fun b1 => .istore b1
  | 0x57#8 => .f1 .pop
  | 0x59#8 => .f1 .dup
  | 0x5F#8 => .f1 .swap
  | 0x60#8 => .f1 .iadd
  | 0x64#8 => .f1 .isub
  | 0x7E#8 => .f1 .iand
  | 0x80#8 => .f1 .ior
  | 0x84#8 => .f3 fun b1 b2 => .iinc b1 b2
  | 0x99#8 => .f3 fun b1 b2 => .ifeq (be16 b1 b2)
  | 0x9B#8 => .f3 fun b1 b2 => .iflt (be16 b1 b2)
  | 0x9F#8 => .f3 fun b1 b2 => .ifIcmpeq (be16 b1 b2)
  | 0xA7#8 => .f3 fun b1 b2 => .goto (be16 b1 b2)
  | 0xAC#8 => .f1 .ireturn
  | 0xB6#8 => .f1 .invokevirtual
  | other => .f1 (.unlisted other)

/-- Decode the instruction at the head of the bytes from `pc` on, in the order of R51: the opcode is
looked up first, and the operand bytes its format asks for are fetched whole or not at all. Answers
the instruction with the bytes after it. -/
def decode (bytes : List Byte) : Except DecodeError (Instr × List Byte) :=
  match bytes with
  | [] => .error .noOpcode
  | opcode :: rest =>
    match formatOf opcode, rest with
    | .f1 i, after => .ok (i, after)
    | .f2 make, b1 :: after => .ok (make b1, after)
    | .f2 _, [] => .error (.missingOperands 1)
    | .f3 make, b1 :: b2 :: after => .ok (make b1 b2, after)
    | .f3 _, [_] => .error (.missingOperands 1)
    | .f3 _, [] => .error (.missingOperands 2)

/-- The bytes of an instruction, opcode first (R45 to R50). -/
def encode (i : Instr) : List Byte :=
  match i with
  | .nop => [0x00#8]
  | .bipush imm8 => [0x10#8, imm8]
  | .ldcW index16 => [0x13#8, hiByte index16, loByte index16]
  | .iload index8 => [0x15#8, index8]
  | .istore index8 => [0x36#8, index8]
  | .pop => [0x57#8]
  | .dup => [0x59#8]
  | .swap => [0x5F#8]
  | .iadd => [0x60#8]
  | .isub => [0x64#8]
  | .iand => [0x7E#8]
  | .ior => [0x80#8]
  | .iinc index8 imm8 => [0x84#8, index8, imm8]
  | .ifeq offset16 => [0x99#8, hiByte offset16, loByte offset16]
  | .iflt offset16 => [0x9B#8, hiByte offset16, loByte offset16]
  | .ifIcmpeq offset16 => [0x9F#8, hiByte offset16, loByte offset16]
  | .goto offset16 => [0xA7#8, hiByte offset16, loByte offset16]
  | .ireturn => [0xAC#8]
  | .invokevirtual => [0xB6#8]
  | .unlisted opcode => [opcode]

/-- The three bytes, first byte first, of an opcode-table word: bit 0 is the least significant bit
of the first byte, and every bit above `nbits` is 0. -/
def tableWordBytes (nbits w : Nat) : List Byte :=
  let v := w % 2 ^ nbits
  [BitVec.ofNat 8 v, BitVec.ofNat 8 (v / 2 ^ 8), BitVec.ofNat 8 (v / 2 ^ 16)]

/-- The instruction the decoder reads from an opcode-table word. -/
def decodeTableWord (nbits w : Nat) : Option Instr :=
  match decode (tableWordBytes nbits w) with
  | .ok (i, _) => some i
  | .error _ => none

end Sys2Proof
end

