-- ==== Sys2Proof/Machine/Fetch.lean ====
section
/-! DEFINITION. The fetch of an instruction from `CODE` at `pc` (20_memory.md R31, 30_encoding.md
R51), what follows a fetch that fails, and what follows the instruction (R116). -/

namespace Sys2Proof.Machine

/-- The instruction at `pc`, with the bytes of the stream after it, or why there is none (R51). -/
def State.fetch (s : State) : Except DecodeError (Instr × List Byte) :=
  decode (Store.bytesFrom s.code s.pc)

/-- A failed fetch. Missing operand bytes raise OutOfBoundsAccess of kind OPERAND_FETCH with their
count (R96). A missing opcode stops the model: R31 says that the opcode fetch is always defined. -/
def fetchFailed (s : State) (e : DecodeError) : Result :=
  match e with
  | .missingOperands n => trap s .operandFetch (BitVec.ofNat 16 n)
  | .noOpcode => .fault .opcodeFetchOutsideCode

/-- What the step does once the instruction has answered: the test for the end of the run (R116). -/
def finishStep (r : Result) : Result :=
  match r with
  | .next t => .next t.finish
  | .fault f => .fault f
  | .refused f => .refused f

/-- The state with a table word's bytes in `CODE` at `pc` and the run state RUNNING: what a load
of that program gives a unit whose `pc` is there (log 11). -/
def State.placeWord (s : State) (nbits w : Nat) : State :=
  { s with code := Store.place s.code s.pc (tableWordBytes nbits w), status := .running }

end Sys2Proof.Machine
end

