-- ==== Sys2Proof/Machine/Step.lean ====
section
/-! DEFINITION. One step of the unit (70_reset_and_hazards.md R116). -/

namespace Sys2Proof.Machine

/-- One whole instruction, atomically (00_scope.md R10). It is defined only when STATUS is RUNNING:
no step is enabled in DONE and FAULT (R22, R103). -/
def step (s : State) : Host.Outcome State Fault Refusal :=
  match s.status with
  | .done => .fault .stepAfterDone
  | .fault => .fault .stepAfterFault
  | .running =>
    match s.fetch with
    | .error e => fetchFailed s e
    | .ok (i, _) => finishStep (exec i s)

/-- The state with an opcode-table word stored where `step` fetches its next instruction, and
RUNNING, so that `step` runs it next (log 11). -/
def State.withFetchWord (s : State) (nbits w : Nat) : State := s.placeWord nbits w

end Sys2Proof.Machine
end

