-- ==== Sys2Proof/Machine/Params.lean ====
section
/-! DEFINITION. The machine for any value of the parameters of 00_scope.md R5: a finite operand
stack (R19, R98), another size of the register file (R17). `exec` and `step` are this machine at
`Config.unit`. -/

namespace Sys2Proof.Machine

/-- The meaning of an instruction on a unit with parameters `c`. -/
def execOn (c : Config) (i : Instr) (s : State) : Result :=
  match i with
  | .bipush imm8 => runBipush c imm8 s
  | .ldcW index16 => runLdcW c index16 s
  | .iload index8 => runIload c index8 s
  | .istore index8 => runIstore c index8 s
  | .dup => runDup c s
  | .iinc index8 imm8 => runIinc c index8 imm8 s
  | .nop => execNop s
  | .pop => execPop s
  | .swap => execSwap s
  | .iadd => execIadd s
  | .isub => execIsub s
  | .iand => execIand s
  | .ior => execIor s
  | .ifeq offset16 => execIfeq offset16 s
  | .iflt offset16 => execIflt offset16 s
  | .ifIcmpeq offset16 => execIfIcmpeq offset16 s
  | .goto offset16 => execGoto offset16 s
  | .ireturn => execIreturn s
  | .invokevirtual => execInvokevirtual s
  | .unlisted opcode => execUnlisted opcode s

/-- One step of a unit with parameters `c` (R116). -/
def stepOn (c : Config) (s : State) : Result :=
  match s.status with
  | .done => .fault .stepAfterDone
  | .fault => .fault .stepAfterFault
  | .running =>
    match s.fetch with
    | .error e => fetchFailed s e
    | .ok (i, _) => finishStep (execOn c i s)

end Sys2Proof.Machine
end

