-- ==== Sys2Proof/Machine/Load.lean ====
section
/-! DEFINITION. Reset with an image: the split of the image and the state after it
(70_reset_and_hazards.md R110 to R114). It is the only way into a run and the only way out of DONE
and FAULT. -/

namespace Sys2Proof.Machine

/-- The state of R28 for a constant pool and an instruction stream. -/
def State.loaded (cp code : List Byte) : State :=
  { State.reset with cp := cp, code := code, status := if code.length = 0 then .done else .running }

/-- Reset with an image of a unit with parameters `c` (R110): byte 0 is the length `n` of the constant pool, the next `n` bytes
are the pool, all remaining bytes are the instruction stream (R111). An image of fewer than `1 + n`
bytes, the empty one among them, is rejected with TruncatedInput (R112, R113), and one whose stream
is too long for `pc` is outside the domain (R114). No other validation is made. -/
def State.loadOn (c : Config) (image : List Byte) : Result :=
  match image with
  | [] => .refused .truncatedInput
  | n :: rest =>
    if rest.length < n.toNat then .refused .truncatedInput
    else if c.maxCodeLen < (rest.drop n.toNat).length then .refused .imageTooLong
    else .next (State.loaded (rest.take n.toNat) (rest.drop n.toNat))

/-- Reset with an image (R110), of this hardware. -/
def State.load (image : List Byte) : Result := State.loadOn Config.unit image

end Sys2Proof.Machine
end

