-- ==== Sys2Proof/Safety.lean ====
section
/-! DEFINITION. The terms claims use: the invariant of a loaded unit, reachability, and what counts
as a run with a result. -/

namespace Sys2Proof.Machine

/-- The values of `CAUSE` a fault leaves: code 1, 3 or 4 with kind 0, or code 2 with any kind
(R23, R94, 93_implementation_defined.md S2 and S3). -/
def legalCauses : List (BitVec 5) :=
  [0b00001#5, 0b00010#5, 0b01010#5, 0b10010#5, 0b11010#5, 0b00011#5, 0b00100#5]

/-- What STATUS says about `pc` and the fault registers: RUNNING implies `pc < CODE_LEN` (R116),
DONE is `pc = CODE_LEN` (R117), a fault leaves `pc` on the faulting opcode, whose index `FPC` holds
(R24), and the fault registers are 0 unless STATUS is FAULT (S4). -/
def State.StatusAgrees (s : State) : Prop :=
  match s.status with
  | .running => s.pc < s.code.length ∧ s.cause = 0 ∧ s.fpc = 0 ∧ s.finfo = 0
  | .done => s.pc = s.code.length ∧ s.cause = 0 ∧ s.fpc = 0 ∧ s.finfo = 0
  | .fault => s.pc < s.code.length ∧ s.cause ∈ legalCauses ∧ s.fpc = s.pc

/-- The invariant of a loaded unit with parameters `c`: the stores have legal lengths (R20, R114),
the depth of the stack is in 0..STACK_DEPTH (R19), STATUS agrees with `pc` and the fault registers,
and the local variables are in canonical form with every slot that does not exist, or that no index
byte can name, zero (R17). -/
structure State.InvOn (c : Config) (s : State) : Prop where
  pool_short : s.cp.length ≤ 255
  code_short : s.code.length ≤ c.maxCodeLen
  depth_fits : fits c s.sp 0 = true
  status_agrees : s.StatusAgrees
  locals_canonical : Memory.wf s.lv = true
  locals_exist : ∀ cell ∈ s.lv, cell.1 < 256 ∧ cell.1 < c.localsSize

/-- The invariant of a loaded unit of this hardware. -/
abbrev State.Inv (s : State) : Prop := s.InvOn Config.unit

/-- `t` is reached from `s` by some number of steps. -/
inductive Reaches : State → State → Prop where
  | refl (s : State) : Reaches s s
  | tail {s t u : State} : Reaches s t → step t = .next u → Reaches s u

/-- The run from the reset with `image` ends normally with the result `out`, top first (R117,
R118). A run that ends in FAULT, or that never ends, has no result (R104, R119). -/
def RunsTo (image out : List Byte) : Prop :=
  ∃ s t : State, State.load image = .next s ∧ Reaches s t ∧ t.result = some out

end Sys2Proof.Machine
end

