-- ==== Sys2Proof/Certificates/Slice0/Obligations.lean ====
section
/-! DEFINITION. The statements for the provers, from the numbered rules of spec/. Each is written in
terms of the state's fields and of plain arithmetic, not of the model's own operations, so that it
says what the rule says. -/

namespace Sys2Proof.Claims

open Sys2Proof Sys2Proof.Machine

/-- The state after a fault by R100: the four fault registers are written and nothing else. -/
def faulted (s : State) (cause : BitVec 5) (info : Half) : State :=
  { s with status := .fault, cause := cause, fpc := s.pc, finfo := info }

/-- `CAUSE` for StackUnderflow: code 1, kind 0 (R23, R94). -/
def stackUnderflow : BitVec 5 := 0b00001#5
/-- `CAUSE` for OutOfBoundsAccess, code 2, of kind OPERAND_FETCH, 0 (R23, R96). -/
def operandFetch : BitVec 5 := 0b00010#5
/-- `CAUSE` for OutOfBoundsAccess of kind BRANCH_TARGET, 1 (R23, R96). -/
def branchTarget : BitVec 5 := 0b01010#5
/-- `CAUSE` for OutOfBoundsAccess of kind LOCAL_INDEX, 2 (R23, R96). -/
def localIndexFault : BitVec 5 := 0b10010#5
/-- `CAUSE` for OutOfBoundsAccess of kind CONST_INDEX, 3 (R23, R96). -/
def constIndexFault : BitVec 5 := 0b11010#5
/-- `CAUSE` for UnsupportedOpcode: code 3, kind 0 (R23, R94). -/
def unsupportedOpcode : BitVec 5 := 0b00011#5
/-- `CAUSE` for StackOverflow: code 4, kind 0 (R23, R94). -/
def stackOverflow : BitVec 5 := 0b00100#5

/-- `{b1, b2}` (R11). -/
def pair (b1 b2 : Byte) : Half := BitVec.ofNat 16 (b1.toNat * 256 + b2.toNat)

/-- R56: the opcodes of format F1. -/
def opcodesF1 : List Byte := [0x00, 0x57, 0x59, 0x5F, 0x60, 0x64, 0x7E, 0x80]
/-- R56: the opcodes of format F2. -/
def opcodesF2 : List Byte := [0x10, 0x15, 0x36]
/-- R56: the opcodes of format F3. -/
def opcodesF3 : List Byte := [0x13, 0x84, 0x99, 0x9B, 0x9F, 0xA7]

/-- The target a taken branch at `s.pc` names, on unbounded integers (R82). -/
def target (s : State) (offset16 : Half) : Int := (s.pc : Int) + offset16.toInt

/-- The legal targets are 0..CODE_LEN (R82). -/
def LegalTarget (s : State) (offset16 : Half) : Prop :=
  0 ≤ target s offset16 ∧ target s offset16 ≤ s.code.length

/-- Everything but `pc`, `lv` and the stack is as before. -/
def SameElse (s t : State) : Prop :=
  t.cp = s.cp ∧ t.code = s.code ∧ t.status = s.status ∧ t.cause = s.cause ∧ t.fpc = s.fpc ∧
    t.finfo = s.finfo

/-- What a conditional branch does once its operands are popped, leaving `below` (R82, R84), where
`taken` says whether its condition holds. -/
def BranchRule (i : Instr) (s : State) (taken : Prop) (offset16 : Half) (below : List Byte) : Prop :=
  (taken → LegalTarget s offset16 →
    exec i s = .next { s with stack := below, pc := (target s offset16).toNat }) ∧
  (taken → ¬ LegalTarget s offset16 → exec i s = .next (faulted s branchTarget offset16)) ∧
  (¬ taken → exec i s = .next { s with stack := below, pc := s.pc + 3 })

/-- An opcode of format F3 with `n` operand bytes missing, for `n` = 1 and 2. -/
def CutOffF3 (opcode : Byte) : Prop :=
  decode [opcode] = .error (.missingOperands 2) ∧
    ∀ b1, decode [opcode, b1] = .error (.missingOperands 1)

/-- How many entries an instruction pops, and how many it then pushes (R61 to R91). -/
def pops (i : Instr) : Nat :=
  match i with
  | .pop | .dup | .istore _ | .ifeq _ | .iflt _ => 1
  | .swap | .iadd | .isub | .iand | .ior | .ifIcmpeq _ => 2
  | .nop | .bipush _ | .ldcW _ | .iload _ | .iinc _ _ | .goto _ | .ireturn | .invokevirtual
  | .unlisted _ => 0

def pushes (i : Instr) : Nat :=
  match i with
  | .bipush _ | .ldcW _ | .iload _ | .iadd | .isub | .iand | .ior => 1
  | .dup | .swap => 2
  | .nop | .pop | .istore _ | .iinc _ _ | .ifeq _ | .iflt _ | .ifIcmpeq _ | .goto _ | .ireturn
  | .invokevirtual | .unlisted _ => 0

/-- The slot an instruction writes, if it writes one. -/
def writesSlot (i : Instr) : Option Byte :=
  match i with
  | .istore index8 => some index8
  | .iinc index8 _ => some index8
  | .nop | .bipush _ | .ldcW _ | .iload _ | .pop | .dup | .swap | .iadd | .isub | .iand | .ior
  | .ifeq _ | .iflt _ | .ifIcmpeq _ | .goto _ | .ireturn | .invokevirtual | .unlisted _ => none

/-- The offset of a branch instruction. -/
def branchOf (i : Instr) : Option Half :=
  match i with
  | .ifeq offset16 | .iflt offset16 | .ifIcmpeq offset16 | .goto offset16 => some offset16
  | .nop | .bipush _ | .ldcW _ | .iload _ | .istore _ | .pop | .dup | .swap | .iadd | .isub
  | .iand | .ior | .iinc _ _ | .ireturn | .invokevirtual | .unlisted _ => none

/-- The slot an instruction names, if it names one (R76). -/
def slotOf (i : Instr) : Option Byte :=
  match i with
  | .iload index8 | .istore index8 => some index8
  | .iinc index8 _ => some index8
  | .nop | .bipush _ | .ldcW _ | .pop | .dup | .swap | .iadd | .isub | .iand | .ior
  | .ifeq _ | .iflt _ | .ifIcmpeq _ | .goto _ | .ireturn | .invokevirtual | .unlisted _ => none

/-- The branch is taken: GOTO always, a conditional branch when its condition holds of the entries on
top (R83, R85 to R88). -/
def Taken (s : State) (i : Instr) : Prop :=
  match i with
  | .goto _ => True
  | .ifeq _ => ∃ a below, s.stack = a :: below ∧ a.toInt = 0
  | .iflt _ => ∃ a below, s.stack = a :: below ∧ a.toInt < 0
  | .ifIcmpeq _ => ∃ a b below, s.stack = a :: b :: below ∧ a = b
  | .nop | .bipush _ | .ldcW _ | .iload _ | .istore _ | .pop | .dup | .swap | .iadd | .isub
  | .iand | .ior | .iinc _ _ | .ireturn | .invokevirtual | .unlisted _ => False

/-- What the parameters ask of an instruction: there is room for an entry if it grows the stack by
one (R98), and the slot exists if it names one (R17). -/
def WithinParameters (c : Config) (i : Instr) (s : State) : Prop :=
  (pushes i = pops i + 1 → ∀ depth, c.stackDepth = some depth → s.stack.length + 1 ≤ depth) ∧
    ∀ index8, slotOf i = some index8 → index8.toNat < c.localsSize

/-- R102: the causes the meaning of each instruction can raise, less OPERAND_FETCH, which its fetch
raises. -/
def mayRaise (i : Instr) : List (BitVec 5) :=
  match i with
  | .nop => []
  | .bipush _ => [stackOverflow]
  | .ldcW _ => [constIndexFault, stackOverflow]
  | .iload _ => [localIndexFault, stackOverflow]
  | .istore _ => [stackUnderflow, localIndexFault]
  | .iinc _ _ => [localIndexFault]
  | .pop => [stackUnderflow]
  | .dup => [stackUnderflow, stackOverflow]
  | .swap | .iadd | .iand | .ior | .isub => [stackUnderflow]
  | .ifeq _ | .iflt _ | .ifIcmpeq _ => [stackUnderflow, branchTarget]
  | .goto _ => [branchTarget]
  | .invokevirtual | .ireturn | .unlisted _ => [unsupportedOpcode]

/-- The condition of a fault that a step of this unit raises, with the FINFO it records: the rule of
its cause, R95, R96 or R97. LOCAL_INDEX and StackOverflow do not occur on this unit. -/
def Justified (s : State) (cause : BitVec 5) (info : Half) : Prop :=
  (cause = operandFetch ∧ ∃ opcode len, s.code[s.pc]? = some opcode ∧
    (opcode ∈ opcodesF2 ∧ len = 2 ∨ opcode ∈ opcodesF3 ∧ len = 3) ∧
    s.code.length < s.pc + len ∧
    info = BitVec.ofNat 16 (s.pc + len - s.code.length)) ∨
  ∃ i rest, decode (s.code.drop s.pc) = .ok (i, rest) ∧
    ((cause = stackUnderflow ∧ s.stack.length < pops i ∧
        info = BitVec.ofNat 16 s.stack.length) ∨
      (cause = branchTarget ∧ branchOf i = some info ∧ Taken s i ∧ ¬ LegalTarget s info) ∨
      (cause = constIndexFault ∧ i = .ldcW info ∧ s.cp.length ≤ info.toNat) ∨
      (cause = unsupportedOpcode ∧ (i = .ireturn ∨ i = .invokevirtual ∨ ∃ b, i = .unlisted b) ∧
        ∃ opcode, s.code[s.pc]? = some opcode ∧ info = BitVec.ofNat 16 opcode.toNat))

/-- `t` is reached from `s` by steps none of which decodes an instruction that writes slot `i`. -/
inductive RunsWithoutWriting (i : Byte) : State → State → Prop where
  | refl (s : State) : RunsWithoutWriting i s s
  | tail {s t u : State} (before : RunsWithoutWriting i s t) (now : step t = .next u)
      (spares : ∀ j rest, t.fetch = .ok (j, rest) → writesSlot j ≠ some i) :
      RunsWithoutWriting i s u

end Sys2Proof.Claims

open Sys2Proof Sys2Proof.Machine Sys2Proof.Claims

/-! ### Encoding and decoding -/

/-- Words written out from the binary opcode column of R50 and the formats of R46 to R48, one or more
of every family, decode to the instructions they stand for. -/
def Obligations.WrittenWordsDecode : Prop :=
  decode [0b00000000#8] = .ok (.nop, []) ∧
  decode [0b00010000#8, 0b10000000#8] = .ok (.bipush 0x80, []) ∧
  decode [0b00010011#8, 0b00000001#8, 0b00000010#8] = .ok (.ldcW 0x0102, []) ∧
  decode [0b01011111#8, 0b01100100#8] = .ok (.swap, [0x64]) ∧
  decode [0b01100100#8] = .ok (.isub, []) ∧
  decode [0b10000100#8, 0b00000011#8, 0b11111111#8] = .ok (.iinc 3 0xFF, []) ∧
  decode [0b00110110#8, 0b11001000#8] = .ok (.istore 200, []) ∧
  decode [0b10011001#8, 0b00000000#8, 0b00010000#8] = .ok (.ifeq 16, []) ∧
  decode [0b10100111#8, 0b11111111#8, 0b11110001#8] = .ok (.goto 0xFFF1, []) ∧
  decode [0b10101100#8, 0b00000000#8] = .ok (.ireturn, [0x00]) ∧
  decode [0b11111111#8] = .ok (.unlisted 0xFF, [])

/-- R50 with the operand assembly of R35 and R49: every opcode value, with every value of its operand
bytes, decodes to the instruction and operands the map gives it, and the two-byte operands have their
high byte first. -/
def Obligations.OpcodeMapWithOperands : Prop :=
  ∀ (b1 b2 : Byte) (rest : List Byte),
    decode (0x00#8 :: rest) = .ok (.nop, rest) ∧
    decode (0x10#8 :: b1 :: rest) = .ok (.bipush b1, rest) ∧
    decode (0x13#8 :: b1 :: b2 :: rest) = .ok (.ldcW (pair b1 b2), rest) ∧
    decode (0x15#8 :: b1 :: rest) = .ok (.iload b1, rest) ∧
    decode (0x36#8 :: b1 :: rest) = .ok (.istore b1, rest) ∧
    decode (0x57#8 :: rest) = .ok (.pop, rest) ∧
    decode (0x59#8 :: rest) = .ok (.dup, rest) ∧
    decode (0x5F#8 :: rest) = .ok (.swap, rest) ∧
    decode (0x60#8 :: rest) = .ok (.iadd, rest) ∧
    decode (0x64#8 :: rest) = .ok (.isub, rest) ∧
    decode (0x7E#8 :: rest) = .ok (.iand, rest) ∧
    decode (0x80#8 :: rest) = .ok (.ior, rest) ∧
    decode (0x84#8 :: b1 :: b2 :: rest) = .ok (.iinc b1 b2, rest) ∧
    decode (0x99#8 :: b1 :: b2 :: rest) = .ok (.ifeq (pair b1 b2), rest) ∧
    decode (0x9B#8 :: b1 :: b2 :: rest) = .ok (.iflt (pair b1 b2), rest) ∧
    decode (0x9F#8 :: b1 :: b2 :: rest) = .ok (.ifIcmpeq (pair b1 b2), rest) ∧
    decode (0xA7#8 :: b1 :: b2 :: rest) = .ok (.goto (pair b1 b2), rest) ∧
    decode (0xAC#8 :: rest) = .ok (.ireturn, rest) ∧
    decode (0xB6#8 :: rest) = .ok (.invokevirtual, rest) ∧
    (b1 ∉ namedOpcodes → decode (b1 :: rest) = .ok (.unlisted b1, rest))

/-- R56: the length of an instruction is told from byte 0 alone. An F1, F2 or F3 opcode takes 1, 2 or
3 bytes, whatever the other bytes are, and no instruction results when they are not all there; every
other value is an instruction with no semantics before any operand byte is fetched.
The spec derives R56 from R50. -/
def Obligations.LengthFollowsFromOpcode : Prop :=
  ∀ (opcode : Byte) (rest : List Byte),
    (opcode ∈ opcodesF1 → ∃ i, ∀ tail, decode (opcode :: tail) = .ok (i, tail)) ∧
    (opcode ∈ opcodesF2 →
      decode [opcode] = .error (.missingOperands 1) ∧
      ∀ b1, ∃ i, decode (opcode :: b1 :: rest) = .ok (i, rest)) ∧
    (opcode ∈ opcodesF3 →
      CutOffF3 opcode ∧ ∀ b1 b2, ∃ i, decode (opcode :: b1 :: b2 :: rest) = .ok (i, rest)) ∧
    (opcode ∉ opcodesF1 → opcode ∉ opcodesF2 → opcode ∉ opcodesF3 →
      ∃ i, decode (opcode :: rest) = .ok (i, rest) ∧
        (i = .ireturn ∨ i = .invokevirtual ∨ i = .unlisted opcode))

/-- Decode and encode agree: for every well-formed instruction, with every operand value, decoding
its bytes, whatever follows them, gives it back and leaves what follows. -/
def Obligations.DecodeOfEncodeIsIdentity : Prop :=
  ∀ (i : Instr) (rest : List Byte), i.wf = true → decode (encode i ++ rest) = .ok (i, rest)

/-- The other direction: each byte sequence has one reading. What decodes is the encoding of the
instruction read, which is well-formed; and no two well-formed instructions share their bytes, nor
are the bytes of one the start of another's. -/
def Obligations.DecodedBytesAreTheEncoding : Prop :=
  (∀ (bytes rest : List Byte) (i : Instr),
    decode bytes = .ok (i, rest) → bytes = encode i ++ rest ∧ i.wf = true) ∧
  ∀ (i j : Instr) (rest rest' : List Byte), i.wf = true → j.wf = true →
    encode i ++ rest = encode j ++ rest' → i = j ∧ rest = rest'

/-! ### The step -/

/-- A step of a RUNNING unit runs the instruction decoded from the bytes of CODE at `pc`, and then,
if it left the unit RUNNING with `pc` = CODE_LEN, makes it DONE. -/
def Obligations.StepRunsDecodedInstruction : Prop :=
  ∀ (s t : State) (i : Instr) (rest : List Byte),
    s.status = .running → decode (s.code.drop s.pc) = .ok (i, rest) → exec i s = .next t →
    step s = .next (if t.status = .running ∧ t.pc = t.code.length
      then { t with status := .done } else t)

/-- An instruction whose operand bytes are cut off by the end of the stream raises OPERAND_FETCH with
the number of missing bytes, `pc + L - CODE_LEN`, and nothing of it runs.
By R51 and R96, the decisions D14 and D5 of the spec. -/
def Obligations.CutOffOperandsRaiseOperandFetch : Prop :=
  ∀ (s : State) (opcode : Byte) (len : Nat),
    s.status = .running → s.code[s.pc]? = some opcode →
    (opcode ∈ opcodesF2 ∧ len = 2 ∨ opcode ∈ opcodesF3 ∧ len = 3) →
    s.code.length < s.pc + len →
    step s = .next (faulted s operandFetch (BitVec.ofNat 16 (s.pc + len - s.code.length)))

/-- R97: an opcode byte 0xB6, 0xAC or without a row in R50 raises UnsupportedOpcode at decode, with
the byte in FINFO and no state changed, whatever bytes follow.
R97 is the decision D4 of the spec. -/
def Obligations.UnsupportedOpcodeRaisedAtDecode : Prop :=
  ∀ (s : State) (opcode : Byte),
    s.status = .running → s.code[s.pc]? = some opcode →
    (opcode = 0xB6 ∨ opcode = 0xAC ∨ opcode ∉ namedOpcodes) →
    step s = .next (faulted s unsupportedOpcode (BitVec.ofNat 16 opcode.toNat))

/-- R89 to R91: the meanings of INVOKEVIRTUAL, IRETURN and the unlisted bytes take the fault, for
every state; their decoding consumes no operand byte.
The three rules are the decision D4 of the spec. -/
def Obligations.UnimplementedInstructionsFault : Prop :=
  ∀ (s : State) (rest : List Byte) (opcode : Byte),
    (decode (0xB6#8 :: rest) = .ok (.invokevirtual, rest) ∧
      exec .invokevirtual s = .next (faulted s unsupportedOpcode 0x00B6)) ∧
    (decode (0xAC#8 :: rest) = .ok (.ireturn, rest) ∧
      exec .ireturn s = .next (faulted s unsupportedOpcode 0x00AC)) ∧
    (opcode ∉ namedOpcodes → decode (opcode :: rest) = .ok (.unlisted opcode, rest)) ∧
    exec (.unlisted opcode) s =
      .next (faulted s unsupportedOpcode (BitVec.ofNat 16 opcode.toNat))

/-- The step is total on RUNNING states and absent elsewhere: every RUNNING state whose `pc`
designates a byte has a successor, and DONE and FAULT states have none. -/
def Obligations.EveryRunningStateHasASuccessor : Prop :=
  ∀ s : State,
    (s.status = .running → s.pc < s.code.length → ∃ t, step s = .next t) ∧
    (s.status ≠ .running → ∀ t, step s ≠ .next t)

/-- R103: a fault is terminal. No step leaves the FAULT state, so nothing is reached from it but
itself and its registers are written once; a reset clears all four registers.
R103 is the decision D13 of the spec. -/
def Obligations.FaultIsTerminalUntilReset : Prop :=
  (∀ s t : State, s.status = .fault → step s ≠ .next t) ∧
  (∀ s t : State, s.status = .fault → Reaches s t → t = s) ∧
  (∀ (image : List Byte) (t : State), State.load image = .next t →
    t.status ≠ .fault ∧ t.cause = 0 ∧ t.fpc = 0 ∧ t.finfo = 0)

/-! ### Faults -/

/-- R100: a step that raises a fault makes exactly the writes of the four fault registers, FPC being
`pc`, and every other field is as before; and the cause and the FINFO it records are those of a rule
whose condition holds in the state before the step.
R100 is the decision D2 of the spec. -/
def Obligations.FaultEntryIsPreciseAndJustified : Prop :=
  ∀ s t : State, step s = .next t → t.status = .fault →
    t = faulted s t.cause t.finfo ∧ Justified s t.cause t.finfo

/-- A step that raises no fault leaves the fault registers as they were.
Derived from R100 and from R23 to R25. -/
def Obligations.FaultRegistersChangeOnlyByAFault : Prop :=
  ∀ s t : State, step s = .next t → t.status ≠ .fault →
    t.cause = s.cause ∧ t.fpc = s.fpc ∧ t.finfo = s.finfo

/-- R95: an instruction that finds fewer entries than it needs raises StackUnderflow with FINFO = sp;
it does nothing else, so a lone entry stays on the stack and `pc` is not advanced.
R95 is the decision D3 of the spec. -/
def Obligations.ShallowStackRaisesUnderflow : Prop :=
  ∀ (s : State) (i : Instr) (k : Nat),
    (k = 1 ∧ (i = .dup ∨ i = .pop ∨ (∃ n, i = .istore n) ∨ (∃ o, i = .ifeq o) ∨
        ∃ o, i = .iflt o)) ∨
      (k = 2 ∧ (i = .swap ∨ i = .iadd ∨ i = .iand ∨ i = .ior ∨ i = .isub ∨
        ∃ o, i = .ifIcmpeq o)) →
    s.stack.length < k →
    exec i s = .next (faulted s stackUnderflow (BitVec.ofNat 16 s.stack.length))

/-- R96: the four kinds of OutOfBoundsAccess, each with its condition and its FINFO. LOCAL_INDEX is
stated for any size of the register file, and with 256 slots or more no ILOAD, ISTORE or IINC raises
it.
R96 is the decision D5 of the spec. -/
def Obligations.OutOfBoundsAccessKinds : Prop :=
  (∀ (s : State) (opcode : Byte) (len : Nat),
    s.status = .running → s.code[s.pc]? = some opcode →
    (opcode ∈ opcodesF2 ∧ len = 2 ∨ opcode ∈ opcodesF3 ∧ len = 3) →
    s.code.length < s.pc + len →
    step s =
      .next (faulted s operandFetch (BitVec.ofNat 16 (s.pc + len - s.code.length)))) ∧
  (∀ (s : State) (offset16 : Half), ¬ LegalTarget s offset16 →
    exec (.goto offset16) s = .next (faulted s branchTarget offset16) ∧
    ∀ (a : Byte) (below : List Byte),
      (s.stack = 0 :: below → exec (.ifeq offset16) s = .next (faulted s branchTarget offset16)) ∧
      (s.stack = a :: below → a.toInt < 0 →
        exec (.iflt offset16) s = .next (faulted s branchTarget offset16)) ∧
      (s.stack = a :: a :: below →
        exec (.ifIcmpeq offset16) s = .next (faulted s branchTarget offset16))) ∧
  (∀ (c : Config) (s : State) (i n : Byte),
    (c.localsSize ≤ i.toNat →
      execOn c (.iload i) s = .next (faulted s localIndexFault (BitVec.ofNat 16 i.toNat)) ∧
      execOn c (.iinc i n) s = .next (faulted s localIndexFault (BitVec.ofNat 16 i.toNat)) ∧
      (s.stack ≠ [] →
        execOn c (.istore i) s = .next (faulted s localIndexFault (BitVec.ofNat 16 i.toNat)))) ∧
    (256 ≤ c.localsSize → s.status ≠ .fault → ∀ t : State,
      (execOn c (.iload i) s = .next t ∨ execOn c (.iinc i n) s = .next t ∨
        execOn c (.istore i) s = .next t) →
      t.status = .fault → t.cause ≠ localIndexFault)) ∧
  (∀ (s : State) (k : Half), s.cp.length ≤ k.toNat →
    exec (.ldcW k) s = .next (faulted s constIndexFault k))

/-- R98: with a finite stack, the four instructions that grow it overflow when it is full, once their
other checks have passed; the five that pop before they push never overflow; and with an unbounded
stack no instruction does.
R98 is the decisions D8 and D21 of the spec, for a finite STACK_DEPTH; this unit has none. -/
def Obligations.FullFiniteStackOverflows : Prop :=
  (∀ (c : Config) (s : State) (n : Byte) (k : Half),
    c.stackDepth = some s.stack.length →
    execOn c (.bipush n) s = .next (faulted s stackOverflow 0) ∧
    (s.stack ≠ [] → execOn c .dup s = .next (faulted s stackOverflow 0)) ∧
    (k.toNat < s.cp.length → execOn c (.ldcW k) s = .next (faulted s stackOverflow 0)) ∧
    (n.toNat < c.localsSize → execOn c (.iload n) s = .next (faulted s stackOverflow 0))) ∧
  (∀ (c : Config) (s t : State) (i : Instr),
    (i = .swap ∨ i = .iadd ∨ i = .iand ∨ i = .ior ∨ i = .isub ∨ c.stackDepth = none) →
    execOn c i s = .next t → t.status = .fault → s.status ≠ .fault → t.cause ≠ stackOverflow)

/-- R17 and R98, the other way round: while an entry the instruction adds fits on the stack and the
slot it names exists, a unit with any parameters does what this unit does, so a finite stack or a
smaller register file faults no earlier than it must. The same of a whole step. -/
def Obligations.ParametersMatterOnlyAtTheirBounds : Prop :=
  (∀ (c : Config) (i : Instr) (s : State), WithinParameters c i s → execOn c i s = exec i s) ∧
  (∀ (c : Config) (s : State),
    (∀ i rest, decode (s.code.drop s.pc) = .ok (i, rest) → WithinParameters c i s) →
    stepOn c s = step s)

/-- R101: when several conditions hold, the one reported is the first of UnsupportedOpcode,
OPERAND_FETCH, StackUnderflow, LOCAL_INDEX or CONST_INDEX, BRANCH_TARGET, StackOverflow.
R101 is the decision D12 of the spec. -/
def Obligations.FaultPriority : Prop :=
  (∀ (s : State) (opcode : Byte),
    s.status = .running → s.code[s.pc]? = some opcode →
    (opcode = 0xB6 ∨ opcode = 0xAC ∨ opcode ∉ namedOpcodes) →
    step s = .next (faulted s unsupportedOpcode (BitVec.ofNat 16 opcode.toNat))) ∧
  (∀ (c : Config) (s : State) (opcode : Byte) (len : Nat),
    s.status = .running → s.code[s.pc]? = some opcode →
    (opcode ∈ opcodesF2 ∧ len = 2 ∨ opcode ∈ opcodesF3 ∧ len = 3) →
    s.code.length < s.pc + len →
    stepOn c s =
      .next (faulted s operandFetch (BitVec.ofNat 16 (s.pc + len - s.code.length)))) ∧
  (∀ (c : Config) (s : State) (i : Byte) (o : Half), s.stack = [] →
    execOn c (.istore i) s = .next (faulted s stackUnderflow 0) ∧
    execOn c .dup s = .next (faulted s stackUnderflow 0) ∧
    execOn c (.ifeq o) s = .next (faulted s stackUnderflow 0) ∧
    execOn c (.iflt o) s = .next (faulted s stackUnderflow 0)) ∧
  (∀ (c : Config) (s : State) (o : Half), s.stack.length < 2 →
    execOn c (.ifIcmpeq o) s =
      .next (faulted s stackUnderflow (BitVec.ofNat 16 s.stack.length))) ∧
  (∀ (c : Config) (s : State) (i : Byte) (k : Half),
    (s.cp.length ≤ k.toNat → execOn c (.ldcW k) s = .next (faulted s constIndexFault k)) ∧
    (c.localsSize ≤ i.toNat →
      execOn c (.iload i) s = .next (faulted s localIndexFault (BitVec.ofNat 16 i.toNat))))

/-- R102: the faults each instruction can raise, complete, for any parameters. A fault of a step is
either OPERAND_FETCH, by an opcode of two or three bytes, or one that the table gives the decoded
instruction; INVOKEVIRTUAL, IRETURN and the unlisted bytes always fault, and NOP never does.
The spec derives R102 from its other rules. -/
def Obligations.FaultsEachInstructionCanRaise : Prop :=
  (∀ (c : Config) (s t : State) (i : Instr), s.status = .running → execOn c i s = .next t →
    t.status = .fault → t.cause ∈ mayRaise i) ∧
  (∀ (c : Config) (s t : State), stepOn c s = .next t → t.status = .fault →
    (t.cause = operandFetch ∧
      ∃ opcode, s.code[s.pc]? = some opcode ∧ (opcode ∈ opcodesF2 ∨ opcode ∈ opcodesF3)) ∨
    ∃ i rest, decode (s.code.drop s.pc) = .ok (i, rest) ∧ t.cause ∈ mayRaise i) ∧
  (∀ (c : Config) (s t : State) (i : Instr),
    (i = .invokevirtual ∨ i = .ireturn ∨ ∃ b, i = .unlisted b) → execOn c i s = .next t →
    t.status = .fault)

/-! ### Constant and stack instructions -/

/-- R64: NOP advances `pc` by one and changes nothing else, in every state, so that it never faults;
every other instruction can fault, on some unit and state. -/
def Obligations.NopOnlyAdvancesPc : Prop :=
  (∀ rest, decode (0x00#8 :: rest) = .ok (.nop, rest)) ∧
  (∀ s : State, exec .nop s = .next { s with pc := s.pc + 1 }) ∧
  ∀ i : Instr, i ≠ .nop → ∃ (c : Config) (s t : State),
    s.status = .running ∧ execOn c i s = .next t ∧ t.status = .fault

/-- R61: BIPUSH pushes its immediate byte unchanged; its operand byte can be cut off, and on a full
finite stack it overflows; a POP after it restores the stack. -/
def Obligations.BipushPushesImmediate : Prop :=
  (∀ b1 rest, decode (0x10#8 :: b1 :: rest) = .ok (.bipush b1, rest)) ∧
  decode [0x10#8] = .error (.missingOperands 1) ∧
  (∀ (s : State) (b1 : Byte),
    exec (.bipush b1) s = .next { s with stack := b1 :: s.stack, pc := s.pc + 2 }) ∧
  (∀ (c : Config) (s : State) (b1 : Byte), c.stackDepth = some s.stack.length →
    execOn c (.bipush b1) s = .next (faulted s stackOverflow 0)) ∧
  (∀ (s : State) (b1 : Byte), ∃ t, exec (.bipush b1) s = .next t ∧
    exec .pop t = .next { s with pc := s.pc + 3 })

/-- R62: DUP pushes a copy of the top, which stays; an empty stack underflows, before a full finite
one overflows; a POP after it restores the stack. -/
def Obligations.DupCopiesTop : Prop :=
  (∀ rest, decode (0x59#8 :: rest) = .ok (.dup, rest)) ∧
  (∀ (s : State) (v : Byte) (below : List Byte), s.stack = v :: below →
    exec .dup s = .next { s with stack := v :: v :: below, pc := s.pc + 1 }) ∧
  (∀ (c : Config) (s : State), s.stack = [] →
    execOn c .dup s = .next (faulted s stackUnderflow 0)) ∧
  (∀ (c : Config) (s : State), s.stack ≠ [] → c.stackDepth = some s.stack.length →
    execOn c .dup s = .next (faulted s stackOverflow 0)) ∧
  (∀ s : State, s.stack ≠ [] → ∃ t, exec .dup s = .next t ∧
    exec .pop t = .next { s with pc := s.pc + 2 })

/-- R63: LDC_W pushes the constant-pool entry its 16-bit index names; an index of CP_LEN or more
raises CONST_INDEX, before a full finite stack overflows. -/
def Obligations.LdcWPushesConstant : Prop :=
  (∀ b1 b2 rest, decode (0x13#8 :: b1 :: b2 :: rest) = .ok (.ldcW (pair b1 b2), rest)) ∧
  CutOffF3 0x13 ∧
  (∀ (s : State) (k : Half) (h : k.toNat < s.cp.length),
    exec (.ldcW k) s = .next { s with stack := s.cp[k.toNat] :: s.stack, pc := s.pc + 3 }) ∧
  (∀ (c : Config) (s : State) (k : Half), s.cp.length ≤ k.toNat →
    execOn c (.ldcW k) s = .next (faulted s constIndexFault k)) ∧
  (∀ (c : Config) (s : State) (k : Half), k.toNat < s.cp.length →
    c.stackDepth = some s.stack.length →
    execOn c (.ldcW k) s = .next (faulted s stackOverflow 0))

/-- R65: POP discards the top; an empty stack underflows. -/
def Obligations.PopDiscardsTop : Prop :=
  (∀ rest, decode (0x57#8 :: rest) = .ok (.pop, rest)) ∧
  (∀ (s : State) (v : Byte) (below : List Byte), s.stack = v :: below →
    exec .pop s = .next { s with stack := below, pc := s.pc + 1 }) ∧
  (∀ s : State, s.stack = [] → exec .pop s = .next (faulted s stackUnderflow 0))

/-- R66: SWAP exchanges the two top entries and touches none below; fewer than two underflow, and a
lone entry stays; a second SWAP restores the stack.
A finite stack changes nothing, so it does not overflow. -/
def Obligations.SwapExchangesTopTwo : Prop :=
  (∀ rest, decode (0x5F#8 :: rest) = .ok (.swap, rest)) ∧
  (∀ (c : Config) (s : State), execOn c .swap s = exec .swap s) ∧
  (∀ (s : State) (a b : Byte) (below : List Byte), s.stack = a :: b :: below →
    exec .swap s = .next { s with stack := b :: a :: below, pc := s.pc + 1 }) ∧
  (∀ s : State, s.stack.length < 2 →
    exec .swap s = .next (faulted s stackUnderflow (BitVec.ofNat 16 s.stack.length))) ∧
  (∀ s : State, 2 ≤ s.stack.length → ∃ t, exec .swap s = .next t ∧
    exec .swap t = .next { s with pc := s.pc + 2 })

/-! ### The ALU and its instructions -/

/-- R72: IADD replaces the two top entries by their sum modulo 256, the sum of the signed readings
wrapped; fewer than two entries underflow.
A finite stack changes nothing, so it does not overflow. -/
def Obligations.IaddPushesWrappedSum : Prop :=
  (∀ rest, decode (0x60#8 :: rest) = .ok (.iadd, rest)) ∧
  (∀ (c : Config) (s : State), execOn c .iadd s = exec .iadd s) ∧
  (∀ (s : State) (a b : Byte) (below : List Byte), s.stack = a :: b :: below →
    exec .iadd s =
      .next { s with stack := BitVec.ofInt 8 (a.toInt + b.toInt) :: below, pc := s.pc + 1 }) ∧
  (∀ s : State, s.stack.length < 2 →
    exec .iadd s = .next (faulted s stackUnderflow (BitVec.ofNat 16 s.stack.length)))

/-- R75: ISUB replaces the two top entries by the top minus the entry below it, wrapped; fewer than
two entries underflow.
A finite stack changes nothing, so it does not overflow. -/
def Obligations.IsubPushesTopMinusBelow : Prop :=
  (∀ rest, decode (0x64#8 :: rest) = .ok (.isub, rest)) ∧
  (∀ (c : Config) (s : State), execOn c .isub s = exec .isub s) ∧
  (∀ (s : State) (a b : Byte) (below : List Byte), s.stack = a :: b :: below →
    exec .isub s =
      .next { s with stack := BitVec.ofInt 8 (a.toInt - b.toInt) :: below, pc := s.pc + 1 }) ∧
  (∀ s : State, s.stack.length < 2 →
    exec .isub s = .next (faulted s stackUnderflow (BitVec.ofNat 16 s.stack.length)))

/-- R73: IAND replaces the two top entries by the byte whose bit `k` is the AND of their bits `k`;
fewer than two entries underflow.
A finite stack changes nothing, so it does not overflow. -/
def Obligations.IandPushesBitwiseAnd : Prop :=
  (∀ rest, decode (0x7E#8 :: rest) = .ok (.iand, rest)) ∧
  (∀ (c : Config) (s : State), execOn c .iand s = exec .iand s) ∧
  (∀ (s : State) (a b : Byte) (below : List Byte), s.stack = a :: b :: below →
    ∃ r : Byte, (∀ k < 8, r.getLsbD k = (a.getLsbD k && b.getLsbD k)) ∧
      exec .iand s = .next { s with stack := r :: below, pc := s.pc + 1 }) ∧
  (∀ s : State, s.stack.length < 2 →
    exec .iand s = .next (faulted s stackUnderflow (BitVec.ofNat 16 s.stack.length)))

/-- R74: IOR replaces the two top entries by the byte whose bit `k` is the OR of their bits `k`; fewer
than two entries underflow.
A finite stack changes nothing, so it does not overflow. -/
def Obligations.IorPushesBitwiseOr : Prop :=
  (∀ rest, decode (0x80#8 :: rest) = .ok (.ior, rest)) ∧
  (∀ (c : Config) (s : State), execOn c .ior s = exec .ior s) ∧
  (∀ (s : State) (a b : Byte) (below : List Byte), s.stack = a :: b :: below →
    ∃ r : Byte, (∀ k < 8, r.getLsbD k = (a.getLsbD k || b.getLsbD k)) ∧
      exec .ior s = .next { s with stack := r :: below, pc := s.pc + 1 }) ∧
  (∀ s : State, s.stack.length < 2 →
    exec .ior s = .next (faulted s stackUnderflow (BitVec.ofNat 16 s.stack.length)))

/-- R68: the adder, read unsigned and signed: it wraps by exactly 256 when the signed sum leaves
-128..127, it is commutative, and it has the rule's corners. -/
def Obligations.AdditionWrapsAtTheSignedBoundary : Prop :=
  (∀ x y : Byte,
    add8 x y = BitVec.ofNat 8 (x.toNat + y.toNat) ∧
    add8 x y = BitVec.ofInt 8 (x.toInt + y.toInt) ∧
    (-128 ≤ x.toInt + y.toInt → x.toInt + y.toInt ≤ 127 →
      (add8 x y).toInt = x.toInt + y.toInt) ∧
    (127 < x.toInt + y.toInt → (add8 x y).toInt = x.toInt + y.toInt - 256) ∧
    (x.toInt + y.toInt < -128 → (add8 x y).toInt = x.toInt + y.toInt + 256) ∧
    add8 x y = add8 y x ∧ add8 x 0 = x) ∧
  (add8 127 1).toInt = -128 ∧ (add8 (-128) (-1)).toInt = 127 ∧ add8 (-128) (-128) = 0 ∧
  (add8 127 127).toInt = -2

/-- R69: the subtractor wraps by the same rule, is not commutative, and has the rule's corners. -/
def Obligations.SubtractionWrapsAtTheSignedBoundary : Prop :=
  (∀ x y : Byte,
    sub8 x y = BitVec.ofInt 8 ((x.toNat : Int) - y.toNat) ∧
    sub8 x y = BitVec.ofInt 8 (x.toInt - y.toInt) ∧
    (-128 ≤ x.toInt - y.toInt → x.toInt - y.toInt ≤ 127 →
      (sub8 x y).toInt = x.toInt - y.toInt) ∧
    (127 < x.toInt - y.toInt → (sub8 x y).toInt = x.toInt - y.toInt - 256) ∧
    (x.toInt - y.toInt < -128 → (sub8 x y).toInt = x.toInt - y.toInt + 256) ∧
    sub8 x x = 0) ∧
  sub8 5 3 ≠ sub8 3 5 ∧ (sub8 (-128) 1).toInt = 127 ∧ (sub8 1 (-128)).toInt = -127 ∧
  sub8 (-128) (-128) = 0 ∧
  (sub8 0 (-128)).toInt = -128 ∧ (sub8 127 (-1)).toInt = -128

/-- R83: the three tests, each in its bit form and its signed form. -/
def Obligations.AluTests : Prop :=
  ∀ a b : Byte,
    (zeroTest a = true ↔ ∀ k < 8, a.getLsbD k = false) ∧ (zeroTest a = true ↔ a.toInt = 0) ∧
    (negTest a = true ↔ a.getLsbD 7 = true) ∧ (negTest a = true ↔ a.toInt < 0) ∧
    (negTest a = true ↔ 0x80 ≤ a.toNat) ∧
    (eqTest a b = true ↔ ∀ k < 8, a.getLsbD k = b.getLsbD k) ∧
    (eqTest a b = true ↔ sub8 a b = 0)

/-! ### Local variables -/

/-- R77: IINC adds its immediate to the slot it names, wrapped; no other slot and nothing of the
stack changes. Its operand bytes can be cut off, and a slot outside a smaller register file raises
LOCAL_INDEX.
That the sum wraps is the reading of the spec, its decision D10 (log 14). -/
def Obligations.IincAddsImmediateToSlot : Prop :=
  (∀ b1 b2 rest, decode (0x84#8 :: b1 :: b2 :: rest) = .ok (.iinc b1 b2, rest)) ∧
  CutOffF3 0x84 ∧
  (∀ (s : State) (i n : Byte), ∃ t, exec (.iinc i n) s = .next t ∧
    (∀ k : Nat, Memory.read t.lv k =
      if k = i.toNat then BitVec.ofInt 8 ((Memory.read s.lv i.toNat).toInt + n.toInt)
      else Memory.read s.lv k) ∧
    t.stack = s.stack ∧ t.pc = s.pc + 3 ∧ SameElse s t) ∧
  (∀ (c : Config) (s : State) (i n : Byte), c.localsSize ≤ i.toNat →
    execOn c (.iinc i n) s = .next (faulted s localIndexFault (BitVec.ofNat 16 i.toNat)))

/-- R78: ILOAD pushes the slot it names, which is not modified. Its operand byte can be cut off; a
slot outside a smaller register file raises LOCAL_INDEX, before a full finite stack overflows. A slot
that nothing has written since the load pushes 0. -/
def Obligations.IloadPushesSlot : Prop :=
  (∀ b1 rest, decode (0x15#8 :: b1 :: rest) = .ok (.iload b1, rest)) ∧
  decode [0x15#8] = .error (.missingOperands 1) ∧
  (∀ (s : State) (i : Byte),
    exec (.iload i) s =
      .next { s with stack := Memory.read s.lv i.toNat :: s.stack, pc := s.pc + 2 }) ∧
  (∀ (c : Config) (s : State) (i : Byte), c.localsSize ≤ i.toNat →
    execOn c (.iload i) s = .next (faulted s localIndexFault (BitVec.ofNat 16 i.toNat))) ∧
  (∀ (c : Config) (s : State) (i : Byte), i.toNat < c.localsSize →
    c.stackDepth = some s.stack.length →
    execOn c (.iload i) s = .next (faulted s stackOverflow 0)) ∧
  (∀ (image : List Byte) (s u : State) (i : Byte), State.load image = .next s →
    RunsWithoutWriting i s u →
    exec (.iload i) u = .next { u with stack := 0 :: u.stack, pc := u.pc + 2 })

/-- R79: ISTORE moves the top of the stack into the slot it names; no other slot changes. Its operand
byte can be cut off; an empty stack underflows, before a slot outside a smaller register file raises
LOCAL_INDEX. -/
def Obligations.IstoreMovesTopToSlot : Prop :=
  (∀ b1 rest, decode (0x36#8 :: b1 :: rest) = .ok (.istore b1, rest)) ∧
  decode [0x36#8] = .error (.missingOperands 1) ∧
  (∀ (s : State) (i v : Byte) (below : List Byte), s.stack = v :: below →
    ∃ t, exec (.istore i) s = .next t ∧
      (∀ k : Nat, Memory.read t.lv k = if k = i.toNat then v else Memory.read s.lv k) ∧
      t.stack = below ∧ t.pc = s.pc + 2 ∧ SameElse s t) ∧
  (∀ (c : Config) (s : State) (i : Byte), s.stack = [] →
    execOn c (.istore i) s = .next (faulted s stackUnderflow 0)) ∧
  (∀ (c : Config) (s : State) (i : Byte), s.stack ≠ [] → c.localsSize ≤ i.toNat →
    execOn c (.istore i) s = .next (faulted s localIndexFault (BitVec.ofNat 16 i.toNat)))

/-- R80: an ILOAD of slot `i`, run after an ISTORE or IINC of slot `i` with any steps between that
write no slot `i`, pushes exactly the byte the write left there, whatever those steps were; and a
write to one slot changes no other slot.
The spec derives R80 from R78, R79 and R41. -/
def Obligations.LoadAfterStoreReadsStoredByte : Prop :=
  (∀ (s t u v : State) (w : Instr) (i : Byte) (rest rest' : List Byte),
    s.fetch = .ok (w, rest) → writesSlot w = some i → step s = .next t → t.status ≠ .fault →
    RunsWithoutWriting i t u →
    u.fetch = .ok (.iload i, rest') → step u = .next v →
    v.stack = Memory.read t.lv i.toNat :: u.stack ∧ v.status ≠ .fault) ∧
  (∀ (s t : State) (w : Instr) (i j : Byte), writesSlot w = some i → exec w s = .next t → j ≠ i →
    Memory.read t.lv j.toNat = Memory.read s.lv j.toNat)

/-- R29: a slot that nothing has written since the load holds zero, whatever steps ran: an ILOAD of it
pushes 0, and an IINC of it leaves the increment. -/
def Obligations.UnwrittenSlotReadsZero : Prop :=
  ∀ (image : List Byte) (s u : State) (i : Byte),
    State.load image = .next s → RunsWithoutWriting i s u →
    Memory.read u.lv i.toNat = 0 ∧
    (∀ (v : State) (rest : List Byte), u.fetch = .ok (.iload i, rest) → step u = .next v →
      v.stack = 0 :: u.stack) ∧
    (∀ (v : State) (n : Byte) (rest : List Byte), u.fetch = .ok (.iinc i n, rest) →
      step u = .next v → Memory.read v.lv i.toNat = n)

/-- R17: two units whose register files have 256 slots or more, and whose stacks have the same depth,
make the same steps.
The spec derives this sentence of R17 from R16 and R49. -/
def Obligations.LargeRegisterFilesAreIndistinguishable : Prop :=
  ∀ (c d : Config), 256 ≤ c.localsSize → 256 ≤ d.localsSize → c.stackDepth = d.stackDepth →
    ∀ s : State, stepOn c s = stepOn d s

/-! ### Branches -/

/-- R85: GOTO adds its offset to the index of its own opcode byte, with the target checked against
0..CODE_LEN; the stack is not touched. -/
def Obligations.GotoAddsOffsetToOwnIndex : Prop :=
  (∀ b1 b2 rest, decode (0xA7#8 :: b1 :: b2 :: rest) = .ok (.goto (pair b1 b2), rest)) ∧
  CutOffF3 0xA7 ∧
  (∀ (s : State) (o : Half), LegalTarget s o →
    exec (.goto o) s = .next { s with pc := (target s o).toNat }) ∧
  (∀ (s : State) (o : Half), ¬ LegalTarget s o →
    exec (.goto o) s = .next (faulted s branchTarget o))

/-- R86: IFEQ pops one value and branches exactly when it is zero; an empty stack underflows. -/
def Obligations.IfeqBranchesOnZero : Prop :=
  (∀ b1 b2 rest, decode (0x99#8 :: b1 :: b2 :: rest) = .ok (.ifeq (pair b1 b2), rest)) ∧
  CutOffF3 0x99 ∧
  (∀ (s : State) (o : Half) (a : Byte) (below : List Byte), s.stack = a :: below →
    BranchRule (.ifeq o) s (a.toInt = 0) o below) ∧
  (∀ (s : State) (o : Half), s.stack = [] →
    exec (.ifeq o) s = .next (faulted s stackUnderflow 0))

/-- R87: IFLT pops one value and branches exactly when it is negative; an empty stack underflows. -/
def Obligations.IfltBranchesOnNegative : Prop :=
  (∀ b1 b2 rest, decode (0x9B#8 :: b1 :: b2 :: rest) = .ok (.iflt (pair b1 b2), rest)) ∧
  CutOffF3 0x9B ∧
  (∀ (s : State) (o : Half) (a : Byte) (below : List Byte), s.stack = a :: below →
    BranchRule (.iflt o) s (a.toInt < 0) o below) ∧
  (∀ (s : State) (o : Half), s.stack = [] →
    exec (.iflt o) s = .next (faulted s stackUnderflow 0))

/-- R88: IF_ICMPEQ pops two values and branches exactly when they are equal; fewer than two entries
underflow, and a lone entry stays. -/
def Obligations.IfIcmpeqBranchesOnEquality : Prop :=
  (∀ b1 b2 rest, decode (0x9F#8 :: b1 :: b2 :: rest) = .ok (.ifIcmpeq (pair b1 b2), rest)) ∧
  CutOffF3 0x9F ∧
  (∀ (s : State) (o : Half) (a b : Byte) (below : List Byte), s.stack = a :: b :: below →
    BranchRule (.ifIcmpeq o) s (a = b) o below) ∧
  (∀ (s : State) (o : Half), s.stack.length < 2 →
    exec (.ifIcmpeq o) s = .next (faulted s stackUnderflow (BitVec.ofNat 16 s.stack.length)))

/-- The smallest endless loop (R119): a RUNNING unit whose `pc` is on a GOTO with offset 0 is in the
same state after any number of steps, while a taken IFEQ, IFLT or IF_ICMPEQ with offset 0 leaves
`pc` but shortens the stack. -/
def Obligations.GotoWithOffsetZeroLoopsForEver : Prop :=
  (∀ (s : State) (rest : List Byte), s.status = .running →
    s.code.drop s.pc = 0xA7#8 :: 0x00#8 :: 0x00#8 :: rest →
    ∀ n : Nat, Sys2Proof.core.run n s = .next s) ∧
  (∀ (s : State) (below : List Byte) (rest : List Byte), s.status = .running →
    s.code.drop s.pc = 0x99#8 :: 0x00#8 :: 0x00#8 :: rest → s.stack = 0 :: below →
    step s = .next { s with stack := below }) ∧
  (∀ (s : State) (a : Byte) (below : List Byte) (rest : List Byte), s.status = .running →
    s.code.drop s.pc = 0x9B#8 :: 0x00#8 :: 0x00#8 :: rest → s.stack = a :: below → a.toInt < 0 →
    step s = .next { s with stack := below }) ∧
  (∀ (s : State) (a : Byte) (below : List Byte) (rest : List Byte), s.status = .running →
    s.code.drop s.pc = 0x9F#8 :: 0x00#8 :: 0x00#8 :: rest → s.stack = a :: a :: below →
    step s = .next { s with stack := below })

/-! ### Frames -/

/-- R36: no instruction writes CODE or CP, and only ISTORE and IINC write LV, each its own slot only;
the same of a whole step, by the instruction it decodes, and a step that decodes none writes no LV. -/
def Obligations.InstructionsWriteNoReadOnlyStore : Prop :=
  (∀ (s t : State) (i : Instr), exec i s = .next t →
    t.code = s.code ∧ t.cp = s.cp ∧
    (writesSlot i = none → t.lv = s.lv) ∧
    (∀ j, writesSlot i = some j → ∀ k : Nat, k ≠ j.toNat →
      Memory.read t.lv k = Memory.read s.lv k)) ∧
  (∀ s t : State, step s = .next t → t.code = s.code ∧ t.cp = s.cp ∧
    ((∀ i rest, decode (s.code.drop s.pc) = .ok (i, rest) → writesSlot i = none) →
      t.lv = s.lv) ∧
    (∀ i rest, decode (s.code.drop s.pc) = .ok (i, rest) → ∀ j, writesSlot i = some j →
      ∀ k : Nat, k ≠ j.toNat → Memory.read t.lv k = Memory.read s.lv k))

/-- The frame of the operand stack: an instruction that raises nothing pops and pushes exactly as
many entries as its rule says, the entries below those it pops are untouched, and STATUS and the fault
registers are as before.
Derived from the rules of the instructions. -/
def Obligations.StackFrameOfEveryInstruction : Prop :=
  ∀ (s t : State) (i : Instr), exec i s = .next t → t.status ≠ .fault →
    pops i ≤ s.stack.length ∧ t.stack.drop (pushes i) = s.stack.drop (pops i) ∧
    t.stack.length + pops i = s.stack.length + pushes i ∧
    t.status = s.status ∧ t.cause = s.cause ∧ t.fpc = s.fpc ∧ t.finfo = s.finfo

/-- R15: in a unit that keeps the invariant, a step that does not fault writes `pc` with the fixed
increment by the encoded length or, for a branch, with `pc` plus the offset, and without wrapping
around; a step that faults does not write it; and it stays in 0..CODE_LEN.
By R15, the decision D5 of the spec. -/
def Obligations.PcMovesByLengthOrOffset : Prop :=
  ∀ s t : State, s.Inv → step s = .next t →
    t.pc ≤ t.code.length ∧
    (t.status = .fault → t.pc = s.pc) ∧
    (t.status ≠ .fault → ∃ i rest, decode (s.code.drop s.pc) = .ok (i, rest) ∧
      (t.pc = s.pc + (encode i).length ∨
        ∃ o, branchOf i = some o ∧ (t.pc : Int) = (s.pc : Int) + o.toInt))

/-- R19: the depth of a finite operand stack never exceeds STACK_DEPTH.
By R19, the decision D8 of the spec. -/
def Obligations.StackDepthStaysWithinCapacity : Prop :=
  ∀ (c : Config) (depth : Nat) (s t : State), c.stackDepth = some depth →
    s.stack.length ≤ depth → stepOn c s = .next t → t.stack.length ≤ depth

/-- The machine with parameters, at the parameters of this hardware, is the unit. -/
def Obligations.ParametricMachineAtUnitIsTheUnit : Prop :=
  (∀ s : State, stepOn Config.unit s = step s) ∧
  (∀ (i : Instr) (s : State), execOn Config.unit i s = exec i s) ∧
  ∀ image : List Byte, State.loadOn Config.unit image = State.load image

/-- PC_WIDTH (R14, R15, R24): in a loaded unit `pc` and FPC are the values of registers of PC_WIDTH
bits; and no run observes the width: two units that differ in it only make the same steps, and an
image that the one of smaller width loads is loaded alike by the other. By the decision D7 of the
spec. -/
def Obligations.PcWidthHoldsPcAndIsUnobservable : Prop :=
  (∀ (c : Config) (s : State), s.InvOn c →
    (s.pcBits c).toNat = s.pc ∧ (s.fpcBits c).toNat = s.fpc) ∧
  (∀ (c d : Config) (s : State), c.localsSize = d.localsSize → c.stackDepth = d.stackDepth →
    stepOn c s = stepOn d s) ∧
  (∀ (c d : Config) (image : List Byte) (t : State), c.pcWidth ≤ d.pcWidth →
    State.loadOn c image = .next t → State.loadOn d image = .next t)

/-! ### Reset, load, the invariant, the end of a run -/

/-- R111 with the reset values of R28: an image of byte `n` and at least `n` more bytes is split into
the pool and the instruction stream, and every item of state has its reset value. -/
def Obligations.LoadSplitsImageAndResetsState : Prop :=
  ∀ (n : Byte) (pool code : List Byte), pool.length = n.toNat → code.length ≤ 65535 →
    ∃ t, State.load (n :: (pool ++ code)) = .next t ∧
      t.cp = pool ∧ t.code = code ∧ t.pc = 0 ∧ (∀ k, Memory.read t.lv k = 0) ∧ t.stack = [] ∧
      (code = [] → t.status = .done) ∧ (code ≠ [] → t.status = .running) ∧
      t.cause = 0 ∧ t.fpc = 0 ∧ t.finfo = 0

/-- R112 and R113: the load fails with TruncatedInput exactly when the image is empty or has fewer
than `1 + n` bytes, `n` its byte 0.
That the empty image is refused so, R113, is the decision D15 of the spec. -/
def Obligations.ShortImagesAreTruncatedInput : Prop :=
  State.load [] = .refused .truncatedInput ∧
  ∀ (n : Byte) (rest : List Byte),
    State.load (n :: rest) = .refused .truncatedInput ↔ (n :: rest).length < 1 + n.toNat

/-- An image that declares no more pool than it has is loaded exactly when the length of its
instruction stream fits in PC_WIDTH bits, 16 on this unit, whatever its bytes are: no other
validation is made. The refusal of a longer one is the model's choice (log 8). -/
def Obligations.LoadValidatesNothingElse : Prop :=
  (∀ (c : Config) (n : Byte) (rest : List Byte), n.toNat ≤ rest.length →
    ((∃ t, State.loadOn c (n :: rest) = .next t) ↔ rest.length - n.toNat < 2 ^ c.pcWidth)) ∧
  ∀ (n : Byte) (rest : List Byte), n.toNat ≤ rest.length →
    ((∃ t, State.load (n :: rest) = .next t) ↔ rest.length - n.toNat ≤ 65535)

/-- `State.reset` is the load of the one-byte image 0x00, the model's choice of image (log 1): `pc` 0,
every slot zero, everything empty, DONE because CODE_LEN is 0. -/
def Obligations.ResetStateValues : Prop :=
  State.load [0x00#8] = .next State.reset ∧ State.reset.pc = 0 ∧ State.reset.stack = [] ∧
  (∀ k, Memory.read State.reset.lv k = 0) ∧ State.reset.cp = [] ∧ State.reset.code = [] ∧
  State.reset.status = .done ∧ State.reset.cause = 0 ∧ State.reset.fpc = 0 ∧ State.reset.finfo = 0

/-- STATUS (R22): its two bits are 0 for RUNNING, 1 for DONE and 2 for FAULT, and the reserved 3 is no
value of it. The encoding is the decision D11 of the spec. -/
def Obligations.StatusEncoding : Prop :=
  Status.word .running = 0 ∧ Status.word .done = 1 ∧ Status.word .fault = 2 ∧
  ∀ st : Status, st.word ≠ 3

/-- The invariant holds at reset. -/
def Obligations.InvariantHoldsAtReset : Prop := State.reset.Inv

/-- The invariant holds after the load of any image that is not refused, on a unit with any
parameters. -/
def Obligations.InvariantHoldsAfterLoad : Prop :=
  ∀ (c : Config) (image : List Byte) (t : State), State.loadOn c image = .next t → t.InvOn c

/-- Every step keeps the invariant: `pc` stays in 0..CODE_LEN, RUNNING implies `pc < CODE_LEN`, DONE
is `pc = CODE_LEN`, a fault names its opcode and a legal cause, the fault registers are 0 otherwise,
the stores keep legal lengths, the stack its capacity, and the local variables their canonical form.
So does every step of a unit with any other parameters. -/
def Obligations.StepKeepsInvariant : Prop :=
  (∀ s t : State, s.Inv → step s = .next t → t.Inv) ∧
  ∀ (c : Config) (s t : State), s.InvOn c → stepOn c s = .next t → t.InvOn c

/-- R117: the run has ended normally exactly when `pc` = CODE_LEN with no fault, tested after reset
and after every step. -/
def Obligations.DoneExactlyAtEndOfStream : Prop :=
  (∀ (image : List Byte) (t : State), State.load image = .next t →
    (t.status = .done ↔ t.pc = t.code.length)) ∧
  (∀ s t : State, s.Inv → step s = .next t →
    (t.status = .done ↔ t.pc = t.code.length ∧ t.status ≠ .fault)) ∧
  (∀ s t : State, s.Inv → Reaches s t → (t.status = .done ↔ t.pc = t.code.length))

/-- R118 and R104: a DONE unit's result is all its stack entries, `S[sp-1]` first and `S[0]` last; a
unit that is not DONE has none.
The order is the decision D16 of the spec (log 14). -/
def Obligations.ResultIsStackTopFirst : Prop :=
  ∀ s : State,
    (s.status = .done → ∃ out, s.result = some out ∧ out.length = s.stack.length ∧
      ∀ k < s.stack.length, out[k]? = s.stackEntry (s.stack.length - 1 - k)) ∧
    (s.status ≠ .done → s.result = none)
end

