-- ==== Sys2Proof/Laws/Decode.lean ====
section
/-! SUPPORT. The decoder and the encoder, format by format. -/

namespace Sys2Proof

@[simp] theorem be16_hi_lo (h : Half) : be16 (hiByte h) (loByte h) = h := by
  unfold be16 hiByte loByte
  ext i hi
  simp only [BitVec.getElem_append, BitVec.getElem_extractLsb']
  split <;> simp_all [BitVec.getLsbD_eq_getElem]

/-- The first byte is the high byte (R35). -/
theorem be16_toNat (b1 b2 : Byte) : (be16 b1 b2).toNat = b1.toNat * 256 + b2.toNat := by
  unfold be16
  rw [BitVec.toNat_append, ← Nat.shiftLeft_add_eq_or_of_lt b2.isLt, Nat.shiftLeft_eq]

@[simp] theorem hiByte_be16 (b1 b2 : Byte) : hiByte (be16 b1 b2) = b1 := by
  apply BitVec.eq_of_toNat_eq
  have := b1.isLt
  have := b2.isLt
  simp only [hiByte, BitVec.extractLsb'_toNat, be16_toNat, Nat.shiftRight_eq_div_pow]
  omega

@[simp] theorem loByte_be16 (b1 b2 : Byte) : loByte (be16 b1 b2) = b2 := by
  apply BitVec.eq_of_toNat_eq
  have := b2.isLt
  simp only [loByte, BitVec.extractLsb'_toNat, be16_toNat, Nat.shiftRight_eq_div_pow]
  omega

/-- A byte that is none of the 19 named opcodes has the catch-all format. -/
theorem formatOf_unlisted {b : Byte} (h : b ∉ namedOpcodes) : formatOf b = .f1 (.unlisted b) := by
  simp only [namedOpcodes, List.mem_cons, List.not_mem_nil, or_false, not_or] at h
  simp [formatOf, h]

theorem wf_unlisted_iff (b : Byte) : (Instr.unlisted b).wf = true ↔ b ∉ namedOpcodes := by
  simp [Instr.wf]

/-- The format of a named opcode is one of nineteen; of any other byte it is the catch-all. -/
theorem formatOf_named_or_unlisted (b : Byte) :
    (b ∈ namedOpcodes) ∨ (b ∉ namedOpcodes ∧ formatOf b = .f1 (.unlisted b)) := by
  by_cases h : b ∈ namedOpcodes
  · exact .inl h
  · exact .inr ⟨h, formatOf_unlisted h⟩

/-- An F1 opcode's instruction is encoded by that one byte. -/
theorem formatOf_f1 {b : Byte} {i : Instr} (h : formatOf b = .f1 i) :
    encode i = [b] ∧ i.wf = true := by
  rcases formatOf_named_or_unlisted b with hb | ⟨hb, hf⟩
  · simp only [namedOpcodes, List.mem_cons, List.not_mem_nil, or_false] at hb
    rcases hb with rfl | rfl | rfl | rfl | rfl | rfl | rfl | rfl | rfl | rfl | rfl | rfl | rfl |
      rfl | rfl | rfl | rfl | rfl | rfl <;>
    first
    | (cases h; exact ⟨rfl, rfl⟩)
    | cases h
  · obtain rfl : Instr.unlisted b = i := by simpa [hf] using h
    exact ⟨rfl, (wf_unlisted_iff b).mpr hb⟩

/-- An F2 opcode's instruction is encoded by that byte and its operand byte. -/
theorem formatOf_f2 {b : Byte} {make : Byte → Instr} (h : formatOf b = .f2 make) (b1 : Byte) :
    encode (make b1) = [b, b1] ∧ (make b1).wf = true := by
  rcases formatOf_named_or_unlisted b with hb | ⟨-, hf⟩
  · simp only [namedOpcodes, List.mem_cons, List.not_mem_nil, or_false] at hb
    rcases hb with rfl | rfl | rfl | rfl | rfl | rfl | rfl | rfl | rfl | rfl | rfl | rfl | rfl |
      rfl | rfl | rfl | rfl | rfl | rfl <;>
    first
    | (cases h; exact ⟨rfl, rfl⟩)
    | cases h
  · simp [hf] at h

/-- An F3 opcode's instruction is encoded by that byte and its two operand bytes, in order. -/
theorem formatOf_f3 {b : Byte} {make : Byte → Byte → Instr} (h : formatOf b = .f3 make)
    (b1 b2 : Byte) : encode (make b1 b2) = [b, b1, b2] ∧ (make b1 b2).wf = true := by
  rcases formatOf_named_or_unlisted b with hb | ⟨-, hf⟩
  · simp only [namedOpcodes, List.mem_cons, List.not_mem_nil, or_false] at hb
    rcases hb with rfl | rfl | rfl | rfl | rfl | rfl | rfl | rfl | rfl | rfl | rfl | rfl | rfl |
      rfl | rfl | rfl | rfl | rfl | rfl <;>
    first
    | (cases h; exact ⟨by simp [encode], rfl⟩)
    | cases h
  · simp [hf] at h

theorem decode_nil : decode [] = .error .noOpcode := rfl

theorem decode_f1 {opcode : Byte} {i : Instr} (h : formatOf opcode = .f1 i) (rest : List Byte) :
    decode (opcode :: rest) = .ok (i, rest) := by
  simp [decode, h]

theorem decode_f2 {opcode : Byte} {make : Byte → Instr} (h : formatOf opcode = .f2 make)
    (b1 : Byte) (rest : List Byte) : decode (opcode :: b1 :: rest) = .ok (make b1, rest) := by
  simp [decode, h]

theorem decode_f3 {opcode : Byte} {make : Byte → Byte → Instr} (h : formatOf opcode = .f3 make)
    (b1 b2 : Byte) (rest : List Byte) :
    decode (opcode :: b1 :: b2 :: rest) = .ok (make b1 b2, rest) := by
  simp [decode, h]

/-- Everything a successful decode can be: the opcode's format says which operand bytes were
read. -/
theorem decode_ok {bytes rest : List Byte} {i : Instr} (h : decode bytes = .ok (i, rest)) :
    ∃ opcode,
      (bytes = opcode :: rest ∧ formatOf opcode = .f1 i) ∨
      (∃ make b1, bytes = opcode :: b1 :: rest ∧ formatOf opcode = .f2 make ∧ make b1 = i) ∨
      (∃ make b1 b2, bytes = opcode :: b1 :: b2 :: rest ∧ formatOf opcode = .f3 make ∧
        make b1 b2 = i) := by
  unfold decode at h
  split at h
  · cases h
  · next opcode tail =>
    refine ⟨opcode, ?_⟩
    split at h <;> simp_all

/-- Everything a failed decode can be. -/
theorem decode_error {bytes : List Byte} {e : DecodeError} (h : decode bytes = .error e) :
    (bytes = [] ∧ e = .noOpcode) ∨
      ∃ opcode,
        (∃ make, bytes = [opcode] ∧ formatOf opcode = .f2 make ∧ e = .missingOperands 1) ∨
        (∃ make, bytes = [opcode] ∧ formatOf opcode = .f3 make ∧ e = .missingOperands 2) ∨
        (∃ make b1, bytes = [opcode, b1] ∧ formatOf opcode = .f3 make ∧
          e = .missingOperands 1) := by
  unfold decode at h
  split at h
  · cases h; simp
  · next opcode tail =>
    refine .inr ⟨opcode, ?_⟩
    split at h <;> simp_all

end Sys2Proof
end

