-- ==== Sys2Proof/Laws/State.lean ====
section
/-! SUPPORT. What each update of the state does to each of its nine fields, so that no later proof
unfolds a record update. -/

namespace Sys2Proof.Machine

@[simp] theorem State.setStack_pc (s : State) (stack : List Byte) :
    (s.setStack stack).pc = s.pc := rfl
@[simp] theorem State.setStack_lv (s : State) (stack : List Byte) :
    (s.setStack stack).lv = s.lv := rfl
@[simp] theorem State.setStack_stack (s : State) (stack : List Byte) :
    (s.setStack stack).stack = stack := rfl
@[simp] theorem State.setStack_cp (s : State) (stack : List Byte) :
    (s.setStack stack).cp = s.cp := rfl
@[simp] theorem State.setStack_code (s : State) (stack : List Byte) :
    (s.setStack stack).code = s.code := rfl
@[simp] theorem State.setStack_status (s : State) (stack : List Byte) :
    (s.setStack stack).status = s.status := rfl
@[simp] theorem State.setStack_cause (s : State) (stack : List Byte) :
    (s.setStack stack).cause = s.cause := rfl
@[simp] theorem State.setStack_fpc (s : State) (stack : List Byte) :
    (s.setStack stack).fpc = s.fpc := rfl
@[simp] theorem State.setStack_finfo (s : State) (stack : List Byte) :
    (s.setStack stack).finfo = s.finfo := rfl

@[simp] theorem State.setPc_pc (s : State) (t : Nat) :
    (s.setPc t).pc = t := rfl
@[simp] theorem State.setPc_lv (s : State) (t : Nat) :
    (s.setPc t).lv = s.lv := rfl
@[simp] theorem State.setPc_stack (s : State) (t : Nat) :
    (s.setPc t).stack = s.stack := rfl
@[simp] theorem State.setPc_cp (s : State) (t : Nat) :
    (s.setPc t).cp = s.cp := rfl
@[simp] theorem State.setPc_code (s : State) (t : Nat) :
    (s.setPc t).code = s.code := rfl
@[simp] theorem State.setPc_status (s : State) (t : Nat) :
    (s.setPc t).status = s.status := rfl
@[simp] theorem State.setPc_cause (s : State) (t : Nat) :
    (s.setPc t).cause = s.cause := rfl
@[simp] theorem State.setPc_fpc (s : State) (t : Nat) :
    (s.setPc t).fpc = s.fpc := rfl
@[simp] theorem State.setPc_finfo (s : State) (t : Nat) :
    (s.setPc t).finfo = s.finfo := rfl

@[simp] theorem State.setStatus_pc (s : State) (st : Status) :
    (s.setStatus st).pc = s.pc := rfl
@[simp] theorem State.setStatus_lv (s : State) (st : Status) :
    (s.setStatus st).lv = s.lv := rfl
@[simp] theorem State.setStatus_stack (s : State) (st : Status) :
    (s.setStatus st).stack = s.stack := rfl
@[simp] theorem State.setStatus_cp (s : State) (st : Status) :
    (s.setStatus st).cp = s.cp := rfl
@[simp] theorem State.setStatus_code (s : State) (st : Status) :
    (s.setStatus st).code = s.code := rfl
@[simp] theorem State.setStatus_status (s : State) (st : Status) :
    (s.setStatus st).status = st := rfl
@[simp] theorem State.setStatus_cause (s : State) (st : Status) :
    (s.setStatus st).cause = s.cause := rfl
@[simp] theorem State.setStatus_fpc (s : State) (st : Status) :
    (s.setStatus st).fpc = s.fpc := rfl
@[simp] theorem State.setStatus_finfo (s : State) (st : Status) :
    (s.setStatus st).finfo = s.finfo := rfl

@[simp] theorem State.advance_pc (s : State) (len : Nat) :
    (s.advance len).pc = s.pc + len := rfl
@[simp] theorem State.advance_lv (s : State) (len : Nat) :
    (s.advance len).lv = s.lv := rfl
@[simp] theorem State.advance_stack (s : State) (len : Nat) :
    (s.advance len).stack = s.stack := rfl
@[simp] theorem State.advance_cp (s : State) (len : Nat) :
    (s.advance len).cp = s.cp := rfl
@[simp] theorem State.advance_code (s : State) (len : Nat) :
    (s.advance len).code = s.code := rfl
@[simp] theorem State.advance_status (s : State) (len : Nat) :
    (s.advance len).status = s.status := rfl
@[simp] theorem State.advance_cause (s : State) (len : Nat) :
    (s.advance len).cause = s.cause := rfl
@[simp] theorem State.advance_fpc (s : State) (len : Nat) :
    (s.advance len).fpc = s.fpc := rfl
@[simp] theorem State.advance_finfo (s : State) (len : Nat) :
    (s.advance len).finfo = s.finfo := rfl

@[simp] theorem State.writeLocal_pc (s : State) (index8 v : Byte) :
    (s.writeLocal index8 v).pc = s.pc := rfl
@[simp] theorem State.writeLocal_lv (s : State) (index8 v : Byte) :
    (s.writeLocal index8 v).lv = Memory.write s.lv (localIndex index8) v := rfl
@[simp] theorem State.writeLocal_stack (s : State) (index8 v : Byte) :
    (s.writeLocal index8 v).stack = s.stack := rfl
@[simp] theorem State.writeLocal_cp (s : State) (index8 v : Byte) :
    (s.writeLocal index8 v).cp = s.cp := rfl
@[simp] theorem State.writeLocal_code (s : State) (index8 v : Byte) :
    (s.writeLocal index8 v).code = s.code := rfl
@[simp] theorem State.writeLocal_status (s : State) (index8 v : Byte) :
    (s.writeLocal index8 v).status = s.status := rfl
@[simp] theorem State.writeLocal_cause (s : State) (index8 v : Byte) :
    (s.writeLocal index8 v).cause = s.cause := rfl
@[simp] theorem State.writeLocal_fpc (s : State) (index8 v : Byte) :
    (s.writeLocal index8 v).fpc = s.fpc := rfl
@[simp] theorem State.writeLocal_finfo (s : State) (index8 v : Byte) :
    (s.writeLocal index8 v).finfo = s.finfo := rfl

@[simp] theorem State.raise_pc (s : State) (f : FaultCause) (info : Half) :
    (s.raise f info).pc = s.pc := rfl
@[simp] theorem State.raise_lv (s : State) (f : FaultCause) (info : Half) :
    (s.raise f info).lv = s.lv := rfl
@[simp] theorem State.raise_stack (s : State) (f : FaultCause) (info : Half) :
    (s.raise f info).stack = s.stack := rfl
@[simp] theorem State.raise_cp (s : State) (f : FaultCause) (info : Half) :
    (s.raise f info).cp = s.cp := rfl
@[simp] theorem State.raise_code (s : State) (f : FaultCause) (info : Half) :
    (s.raise f info).code = s.code := rfl
@[simp] theorem State.raise_status (s : State) (f : FaultCause) (info : Half) :
    (s.raise f info).status = .fault := rfl
@[simp] theorem State.raise_cause (s : State) (f : FaultCause) (info : Half) :
    (s.raise f info).cause = f.word := rfl
@[simp] theorem State.raise_fpc (s : State) (f : FaultCause) (info : Half) :
    (s.raise f info).fpc = s.pc := rfl
@[simp] theorem State.raise_finfo (s : State) (f : FaultCause) (info : Half) :
    (s.raise f info).finfo = info := rfl

/-! `finish` writes STATUS only. -/

@[simp] theorem State.finish_pc (s : State) : s.finish.pc = s.pc := by
  unfold State.finish; split <;> rfl
@[simp] theorem State.finish_lv (s : State) : s.finish.lv = s.lv := by
  unfold State.finish; split <;> rfl
@[simp] theorem State.finish_stack (s : State) : s.finish.stack = s.stack := by
  unfold State.finish; split <;> rfl
@[simp] theorem State.finish_cp (s : State) : s.finish.cp = s.cp := by
  unfold State.finish; split <;> rfl
@[simp] theorem State.finish_code (s : State) : s.finish.code = s.code := by
  unfold State.finish; split <;> rfl
@[simp] theorem State.finish_cause (s : State) : s.finish.cause = s.cause := by
  unfold State.finish; split <;> rfl
@[simp] theorem State.finish_fpc (s : State) : s.finish.fpc = s.fpc := by
  unfold State.finish; split <;> rfl
@[simp] theorem State.finish_finfo (s : State) : s.finish.finfo = s.finfo := by
  unfold State.finish; split <;> rfl

theorem State.finish_status (s : State) :
    s.finish.status = if s.status = .running ∧ s.pc = s.codeLen then .done else s.status := by
  unfold State.finish; split <;> rfl

/-- A faulted state is not touched by the end-of-run test. -/
@[simp] theorem State.finish_raise (s : State) (f : FaultCause) (info : Half) :
    (s.raise f info).finish = s.raise f info := by
  simp [State.finish]

end Sys2Proof.Machine
end

