-- ==== Sys2Proof/Laws/Ops.lean ====
section
/-! SUPPORT. For each shared operation: what it answers under the condition it checks, and one lemma
that says everything it can do when it answers a next state. -/

namespace Sys2Proof.Machine

theorem trap_next {s t : State} {f : FaultCause} {info : Half} (h : trap s f info = .next t) :
    t = s.raise f info := by
  simpa [trap, eq_comm] using h

/-! ### The stack checks -/

theorem needOne_cons {s : State} {a : Byte} {below : List Byte} (h : s.stack = a :: below)
    (k : Byte → List Byte → Result) : needOne s k = k a below := by
  simp [needOne, h]

theorem needOne_nil {s : State} (h : s.stack = []) (k : Byte → List Byte → Result) :
    needOne s k = trap s .stackUnderflow 0 := by
  simp [needOne, h]

/-- `need(1)` goes on with the top, or underflows on an empty stack. -/
theorem needOne_next {s t : State} {k : Byte → List Byte → Result} (h : needOne s k = .next t) :
    (∃ a below, s.stack = a :: below ∧ k a below = .next t) ∨
      (s.stack = [] ∧ t = s.raise .stackUnderflow 0) := by
  unfold needOne at h
  split at h
  · next a below hs => exact .inl ⟨a, below, hs, h⟩
  · next hs => exact .inr ⟨hs, trap_next h⟩

theorem needTwo_cons {s : State} {a b : Byte} {below : List Byte} (h : s.stack = a :: b :: below)
    (k : Byte → Byte → List Byte → Result) : needTwo s k = k a b below := by
  simp [needTwo, h]

theorem needTwo_short {s : State} (h : s.sp < 2) (k : Byte → Byte → List Byte → Result) :
    needTwo s k = trap s .stackUnderflow (BitVec.ofNat 16 s.sp) := by
  unfold needTwo
  split <;> simp_all [State.sp]

/-- `need(2)` goes on with the two top entries, or underflows with the depth it found. -/
theorem needTwo_next {s t : State} {k : Byte → Byte → List Byte → Result}
    (h : needTwo s k = .next t) :
    (∃ a b below, s.stack = a :: b :: below ∧ k a b below = .next t) ∨
      (s.sp < 2 ∧ t = s.raise .stackUnderflow (BitVec.ofNat 16 s.sp)) := by
  by_cases hs : s.sp < 2
  · rw [needTwo_short hs] at h
    exact .inr ⟨hs, trap_next h⟩
  · match hst : s.stack with
    | a :: b :: below =>
      rw [needTwo_cons hst] at h
      exact .inl ⟨a, b, below, rfl, h⟩
    | [_] | [] => simp [State.sp, hst] at hs

/-! ### The checks against the parameters -/

theorem room_ok {c : Config} {s : State} (h : fits c s.sp 1 = true) (k : Result) :
    room c s k = k := by
  simp [room, h]

theorem room_full {c : Config} {s : State} (h : fits c s.sp 1 = false) (k : Result) :
    room c s k = trap s .stackOverflow 0 := by
  simp [room, h]

/-- `room(1)` goes on, or overflows on a full finite stack. -/
theorem room_next {c : Config} {s t : State} {k : Result} (h : room c s k = .next t) :
    (fits c s.sp 1 = true ∧ k = .next t) ∨
      (fits c s.sp 1 = false ∧ t = s.raise .stackOverflow 0) := by
  unfold room at h
  split at h
  · next hf => exact .inl ⟨hf, h⟩
  · next hf => exact .inr ⟨by simpa using hf, trap_next h⟩

/-- An unbounded stack always has room. -/
theorem fits_unbounded {c : Config} (h : c.stackDepth = none) (sp n : Nat) : fits c sp n = true := by
  simp [fits, h]

theorem slot_ok {c : Config} {index8 : Byte} (h : localIndex index8 < c.localsSize) (s : State)
    (k : Result) : slot c index8 s k = k := by
  simp [slot, h]

theorem slot_bad {c : Config} {index8 : Byte} (h : c.localsSize ≤ localIndex index8) (s : State)
    (k : Result) :
    slot c index8 s k = trap s .localIndex (BitVec.ofNat 16 (localIndex index8)) := by
  simp [slot, Nat.not_lt.mpr h]

/-- `slot(i)` goes on, or raises LOCAL_INDEX. -/
theorem slot_next {c : Config} {index8 : Byte} {s t : State} {k : Result}
    (h : slot c index8 s k = .next t) :
    (localIndex index8 < c.localsSize ∧ k = .next t) ∨
      (c.localsSize ≤ localIndex index8 ∧
        t = s.raise .localIndex (BitVec.ofNat 16 (localIndex index8))) := by
  unfold slot at h
  split at h
  · next hi => exact .inl ⟨hi, h⟩
  · next hi => exact .inr ⟨Nat.not_lt.mp hi, trap_next h⟩

theorem localIndex_lt (index8 : Byte) : localIndex index8 < 256 := index8.isLt

/-- A register file of 256 slots or more has every slot an index byte can name (R17). -/
theorem slot_large {c : Config} (h : 256 ≤ c.localsSize) (index8 : Byte) (s : State) (k : Result) :
    slot c index8 s k = k :=
  slot_ok (Nat.lt_of_lt_of_le (localIndex_lt index8) h) s k

@[simp] theorem slot_unit (index8 : Byte) (s : State) (k : Result) :
    slot Config.unit index8 s k = k :=
  slot_large (by decide) index8 s k

@[simp] theorem room_unit (s : State) (k : Result) : room Config.unit s k = k :=
  room_ok (fits_unbounded rfl _ _) k

/-! ### Branch resolution -/

/-- The model's reading of an offset is the vector's two's-complement reading. -/
theorem branchOffset_eq (offset16 : Half) : branchOffset offset16 = offset16.toInt := by
  unfold branchOffset
  rw [BitVec.toInt_eq_toNat_cond]
  have := offset16.isLt
  split <;> split <;> omega

theorem branchTarget_eq (s : State) (offset16 : Half) :
    s.branchTarget offset16 = s.pc + offset16.toInt := by
  rw [State.branchTarget, branchOffset_eq]

theorem branchTo_legal {s : State} {offset16 : Half} (stack : List Byte)
    (h₀ : 0 ≤ (s.pc : Int) + offset16.toInt)
    (h₁ : (s.pc : Int) + offset16.toInt ≤ s.codeLen) :
    branchTo s offset16 stack =
      .next ((s.setStack stack).setPc ((s.pc : Int) + offset16.toInt).toNat) := by
  simp [branchTo, branchTarget_eq, h₀, h₁]

theorem branchTo_illegal {s : State} {offset16 : Half} (stack : List Byte)
    (h : (s.pc : Int) + offset16.toInt < 0 ∨
      (s.codeLen : Int) < (s.pc : Int) + offset16.toInt) :
    branchTo s offset16 stack = trap s .branchTarget offset16 := by
  unfold branchTo
  rw [branchTarget_eq, if_neg (by omega)]

/-- A branch that is taken writes a legal target and the stack it leaves, or raises
BRANCH_TARGET. -/
theorem branchTo_next {s t : State} {offset16 : Half} {stack : List Byte}
    (h : branchTo s offset16 stack = .next t) :
    (0 ≤ (s.pc : Int) + offset16.toInt ∧
        (s.pc : Int) + offset16.toInt ≤ s.codeLen ∧
        t = (s.setStack stack).setPc ((s.pc : Int) + offset16.toInt).toNat) ∨
      (((s.pc : Int) + offset16.toInt < 0 ∨
          (s.codeLen : Int) < (s.pc : Int) + offset16.toInt) ∧
        t = s.raise .branchTarget offset16) := by
  unfold branchTo at h
  rw [branchTarget_eq] at h
  split at h
  · next hr =>
    refine .inl ⟨hr.1, hr.2, ?_⟩
    simpa [eq_comm] using h
  · exact .inr ⟨by omega, trap_next h⟩

/-- A conditional branch falls through, or is taken. -/
theorem branchIf_next {taken : Bool} {s t : State} {offset16 : Half} {below : List Byte}
    (h : branchIf taken s offset16 below = .next t) :
    (taken = false ∧ t = (s.setStack below).advance 3) ∨
      (taken = true ∧ branchTo s offset16 below = .next t) := by
  unfold branchIf at h
  split at h
  · next ht => exact .inr ⟨ht, h⟩
  · next ht => exact .inl ⟨by simpa using ht, by simpa [eq_comm] using h⟩

/-! ### The readings and the ALU's tests -/

theorem zeroTest_iff (a : Byte) : zeroTest a = true ↔ a = 0#8 := by simp [zeroTest]

theorem negTest_iff (a : Byte) : negTest a = true ↔ a.toInt < 0 := by
  revert a; decide

theorem eqTest_iff (a b : Byte) : eqTest a b = true ↔ a = b := by simp [eqTest]

end Sys2Proof.Machine
end

