-- ==== Sys2Proof/Laws/Exec.lean ====
section
/-! SUPPORT. What an instruction and a step can do, said once: `execOn_next` and `stepOn_next`. -/

namespace Sys2Proof.Machine

/-- The unit is the parametric machine at its own parameters. -/
theorem execOn_unit (i : Instr) (s : State) : execOn Config.unit i s = exec i s := by
  cases i <;> rfl

theorem stepOn_unit (s : State) : stepOn Config.unit s = step s := by
  unfold stepOn step
  cases s.status with
  | running => cases s.fetch <;> simp only [execOn_unit]
  | done | fault => rfl

/-- The effect of an instruction that raises nothing: `t` is the state after it. -/
def Effect (c : Config) (i : Instr) (s t : State) : Prop :=
  match i with
  | .nop => t = s.advance 1
  | .bipush imm8 => fits c s.sp 1 = true ∧ t = (s.setStack (imm8 :: s.stack)).advance 2
  | .ldcW index16 => ∃ v, s.cp[index16.toNat]? = some v ∧ fits c s.sp 1 = true ∧
      t = (s.setStack (v :: s.stack)).advance 3
  | .iload index8 => index8.toNat < c.localsSize ∧ fits c s.sp 1 = true ∧
      t = (s.setStack (s.readLocal index8 :: s.stack)).advance 2
  | .istore index8 => ∃ a below, s.stack = a :: below ∧ index8.toNat < c.localsSize ∧
      t = ((s.writeLocal index8 a).setStack below).advance 2
  | .pop => ∃ a below, s.stack = a :: below ∧ t = (s.setStack below).advance 1
  | .dup => ∃ a below, s.stack = a :: below ∧ fits c s.sp 1 = true ∧
      t = (s.setStack (a :: a :: below)).advance 1
  | .swap => ∃ a b below, s.stack = a :: b :: below ∧ t = (s.setStack (b :: a :: below)).advance 1
  | .iadd => ∃ a b below, s.stack = a :: b :: below ∧
      t = (s.setStack (add8 a b :: below)).advance 1
  | .isub => ∃ a b below, s.stack = a :: b :: below ∧
      t = (s.setStack (sub8 a b :: below)).advance 1
  | .iand => ∃ a b below, s.stack = a :: b :: below ∧
      t = (s.setStack (and8 a b :: below)).advance 1
  | .ior => ∃ a b below, s.stack = a :: b :: below ∧
      t = (s.setStack (or8 a b :: below)).advance 1
  | .iinc index8 imm8 => index8.toNat < c.localsSize ∧
      t = (s.writeLocal index8 (add8 (s.readLocal index8) imm8)).advance 3
  | .ifeq offset16 => ∃ a below, s.stack = a :: below ∧ Branched (zeroTest a) s offset16 below t
  | .iflt offset16 => ∃ a below, s.stack = a :: below ∧ Branched (negTest a) s offset16 below t
  | .ifIcmpeq offset16 => ∃ a b below, s.stack = a :: b :: below ∧
      Branched (eqTest a b) s offset16 below t
  | .goto offset16 => Branched true s offset16 s.stack t
  | .ireturn | .invokevirtual | .unlisted _ => False
where
  /-- A branch that leaves `below` on the stack fell through, or went to a legal target. -/
  Branched (taken : Bool) (s : State) (offset16 : Half) (below : List Byte) (t : State) : Prop :=
    (taken = false ∧ t = (s.setStack below).advance 3) ∨
      (taken = true ∧ 0 ≤ (s.pc : Int) + offset16.toInt ∧
        (s.pc : Int) + offset16.toInt ≤ s.codeLen ∧
        t = (s.setStack below).setPc ((s.pc : Int) + offset16.toInt).toNat)

/-- The causes the meaning of an instruction can raise (R102, less OPERAND_FETCH, which is the
fetch's). -/
def canRaise (i : Instr) (f : FaultCause) : Bool :=
  match i with
  | .nop => false
  | .bipush _ => f == .stackOverflow
  | .ldcW _ => f == .constIndex || f == .stackOverflow
  | .iload _ => f == .localIndex || f == .stackOverflow
  | .istore _ => f == .stackUnderflow || f == .localIndex
  | .iinc _ _ => f == .localIndex
  | .dup => f == .stackUnderflow || f == .stackOverflow
  | .pop | .swap | .iadd | .isub | .iand | .ior => f == .stackUnderflow
  | .ifeq _ | .iflt _ | .ifIcmpeq _ => f == .stackUnderflow || f == .branchTarget
  | .goto _ => f == .branchTarget
  | .ireturn | .invokevirtual | .unlisted _ => f == .unsupportedOpcode

/-- How many entries an instruction needs on the stack (R95). -/
def needs (i : Instr) : Nat :=
  match i with
  | .dup | .pop | .istore _ | .ifeq _ | .iflt _ => 1
  | .swap | .iadd | .iand | .ior | .isub | .ifIcmpeq _ => 2
  | .nop | .bipush _ | .ldcW _ | .iload _ | .iinc _ _ | .goto _ | .ireturn | .invokevirtual
  | .unlisted _ => 0

/-- The instruction is a branch with this offset that is taken: GOTO, or a conditional branch whose
test holds of the entries on top (R83, R85 to R88). -/
def Takes (i : Instr) (s : State) (offset16 : Half) : Prop :=
  i = .goto offset16 ∨
    (∃ a below, s.stack = a :: below ∧
      (i = .ifeq offset16 ∧ zeroTest a = true ∨ i = .iflt offset16 ∧ negTest a = true)) ∨
    ∃ a b below, s.stack = a :: b :: below ∧ i = .ifIcmpeq offset16 ∧ eqTest a b = true

/-- The condition under which an instruction raises a cause, and the `FINFO` it then records
(R95 to R98). -/
def RaisesWhen (c : Config) (i : Instr) (s : State) (f : FaultCause) (info : Half) : Prop :=
  match f with
  | .stackUnderflow => s.sp < needs i ∧ info = BitVec.ofNat 16 s.sp
  | .operandFetch => False
  | .branchTarget =>
    Takes i s info ∧
      ((s.pc : Int) + info.toInt < 0 ∨ (s.codeLen : Int) < (s.pc : Int) + info.toInt)
  | .localIndex => ∃ x : Byte, (i = .iload x ∨ i = .istore x ∨ ∃ n, i = .iinc x n) ∧
      c.localsSize ≤ x.toNat ∧ info = BitVec.ofNat 16 x.toNat
  | .constIndex => i = .ldcW info ∧ s.cpLen ≤ info.toNat
  | .unsupportedOpcode => ∃ opcode : Byte,
      (i = .ireturn ∧ opcode = 0xAC ∨ i = .invokevirtual ∧ opcode = 0xB6 ∨ i = .unlisted opcode) ∧
      info = opcode.setWidth 16
  | .stackOverflow => fits c s.sp 1 = false ∧ info = 0

theorem next_eq {s t : State} (h : (Host.Outcome.next s : Result) = .next t) : t = s := by
  simpa [eq_comm] using h

theorem binary_next {f : Byte → Byte → Byte} {s t : State} (h : binary f s = .next t) :
    (∃ a b below, s.stack = a :: b :: below ∧ t = (s.setStack (f a b :: below)).advance 1) ∨
      (s.sp < 2 ∧ t = s.raise .stackUnderflow (BitVec.ofNat 16 s.sp)) := by
  rcases needTwo_next h with ⟨a, b, below, hs, hk⟩ | hu
  · exact .inl ⟨a, b, below, hs, next_eq hk⟩
  · exact .inr hu

theorem branchIf_branched {taken : Bool} {s t : State} {offset16 : Half} {below : List Byte}
    (h : branchIf taken s offset16 below = .next t) :
    Effect.Branched taken s offset16 below t ∨
      (taken = true ∧ ((s.pc : Int) + offset16.toInt < 0 ∨
          (s.codeLen : Int) < (s.pc : Int) + offset16.toInt) ∧
        t = s.raise .branchTarget offset16) := by
  rcases branchIf_next h with ⟨ht, rfl⟩ | ⟨ht, hb⟩
  · exact .inl (.inl ⟨ht, rfl⟩)
  · rcases branchTo_next hb with ⟨h₀, h₁, rfl⟩ | hr
    · exact .inl (.inr ⟨ht, h₀, h₁, rfl⟩)
    · exact .inr ⟨ht, hr⟩

/-- Everything an instruction can do when it answers a next state: its effect, or one of the faults
it can raise, under that fault's condition and from the state as it was. -/
theorem execOn_next {c : Config} {i : Instr} {s t : State} (h : execOn c i s = .next t) :
    Effect c i s t ∨
      ∃ f info, canRaise i f = true ∧ RaisesWhen c i s f info ∧ t = s.raise f info := by
  cases i with
  | nop => exact .inl (next_eq h)
  | bipush imm8 =>
    rcases room_next h with ⟨hf, hk⟩ | ⟨hf, rfl⟩
    · exact .inl ⟨hf, next_eq hk⟩
    · exact .inr ⟨.stackOverflow, _, rfl, ⟨hf, rfl⟩, rfl⟩
  | ldcW index16 =>
    change runLdcW c index16 s = _ at h
    unfold runLdcW at h
    split at h
    · next hn =>
      obtain rfl := trap_next h
      exact .inr ⟨.constIndex, _, rfl, ⟨rfl, List.getElem?_eq_none_iff.mp hn⟩, rfl⟩
    · next v hv =>
      rcases room_next h with ⟨hf, hk⟩ | ⟨hf, rfl⟩
      · exact .inl ⟨v, hv, hf, next_eq hk⟩
      · exact .inr ⟨.stackOverflow, _, rfl, ⟨hf, rfl⟩, rfl⟩
  | iload index8 =>
    rcases slot_next h with ⟨hi, hk⟩ | ⟨hi, rfl⟩
    · rcases room_next hk with ⟨hf, hk⟩ | ⟨hf, rfl⟩
      · exact .inl ⟨hi, hf, next_eq hk⟩
      · exact .inr ⟨.stackOverflow, _, rfl, ⟨hf, rfl⟩, rfl⟩
    · exact .inr ⟨.localIndex, _, rfl, ⟨index8, .inl rfl, hi, rfl⟩, rfl⟩
  | istore index8 =>
    rcases needOne_next h with ⟨a, below, hs, hk⟩ | ⟨hs, rfl⟩
    · rcases slot_next hk with ⟨hi, hk⟩ | ⟨hi, rfl⟩
      · exact .inl ⟨a, below, hs, hi, next_eq hk⟩
      · exact .inr ⟨.localIndex, _, rfl, ⟨index8, .inr (.inl rfl), hi, rfl⟩, rfl⟩
    · exact .inr ⟨.stackUnderflow, _, rfl, by simp [RaisesWhen, needs, State.sp, hs], rfl⟩
  | pop =>
    rcases needOne_next h with ⟨a, below, hs, hk⟩ | ⟨hs, rfl⟩
    · exact .inl ⟨a, below, hs, next_eq hk⟩
    · exact .inr ⟨.stackUnderflow, _, rfl, by simp [RaisesWhen, needs, State.sp, hs], rfl⟩
  | dup =>
    rcases needOne_next h with ⟨a, below, hs, hk⟩ | ⟨hs, rfl⟩
    · rcases room_next hk with ⟨hf, hk⟩ | ⟨hf, rfl⟩
      · exact .inl ⟨a, below, hs, hf, next_eq hk⟩
      · exact .inr ⟨.stackOverflow, _, rfl, ⟨hf, rfl⟩, rfl⟩
    · exact .inr ⟨.stackUnderflow, _, rfl, by simp [RaisesWhen, needs, State.sp, hs], rfl⟩
  | swap =>
    rcases needTwo_next h with ⟨a, b, below, hs, hk⟩ | ⟨hs, rfl⟩
    · exact .inl ⟨a, b, below, hs, next_eq hk⟩
    · exact .inr ⟨.stackUnderflow, _, rfl, ⟨hs, rfl⟩, rfl⟩
  | iadd | isub | iand | ior =>
    rcases binary_next h with he | ⟨hs, rfl⟩
    · exact .inl he
    · exact .inr ⟨.stackUnderflow, _, rfl, ⟨hs, rfl⟩, rfl⟩
  | iinc index8 imm8 =>
    rcases slot_next h with ⟨hi, hk⟩ | ⟨hi, rfl⟩
    · exact .inl ⟨hi, next_eq hk⟩
    · exact .inr ⟨.localIndex, _, rfl, ⟨index8, .inr (.inr ⟨imm8, rfl⟩), hi, rfl⟩, rfl⟩
  | ifeq offset16 | iflt offset16 =>
    rcases needOne_next h with ⟨a, below, hs, hk⟩ | ⟨hs, rfl⟩
    · rcases branchIf_branched hk with hb | ⟨ht, hb, rfl⟩
      · exact .inl ⟨a, below, hs, hb⟩
      · exact .inr ⟨.branchTarget, _, rfl, ⟨.inr (.inl ⟨a, below, hs, by simp [ht]⟩), hb⟩, rfl⟩
    · exact .inr ⟨.stackUnderflow, _, rfl, by simp [RaisesWhen, needs, State.sp, hs], rfl⟩
  | ifIcmpeq offset16 =>
    rcases needTwo_next h with ⟨a, b, below, hs, hk⟩ | ⟨hs, rfl⟩
    · rcases branchIf_branched hk with hb | ⟨ht, hb, rfl⟩
      · exact .inl ⟨a, b, below, hs, hb⟩
      · exact .inr ⟨.branchTarget, _, rfl, ⟨.inr (.inr ⟨a, b, below, hs, rfl, ht⟩), hb⟩, rfl⟩
    · exact .inr ⟨.stackUnderflow, _, rfl, ⟨hs, rfl⟩, rfl⟩
  | goto offset16 =>
    rcases branchTo_next h with ⟨h₀, h₁, rfl⟩ | ⟨hb, rfl⟩
    · exact .inl (.inr ⟨rfl, h₀, h₁, rfl⟩)
    · exact .inr ⟨.branchTarget, _, rfl, ⟨.inl rfl, hb⟩, rfl⟩
  | ireturn | invokevirtual | unlisted opcode =>
    exact .inr ⟨.unsupportedOpcode, _, rfl, ⟨_, by simp, rfl⟩, trap_next h⟩

/-- The effect of an instruction writes no field but `pc`, `lv` and the stack. -/
theorem Effect.same_else {c : Config} {i : Instr} {s t : State} (h : Effect c i s t) :
    t.cp = s.cp ∧ t.code = s.code ∧ t.status = s.status ∧ t.cause = s.cause ∧ t.fpc = s.fpc ∧
      t.finfo = s.finfo := by
  cases i <;> simp only [Effect, Effect.Branched] at h
  case nop => subst h; simp
  case bipush | iinc => obtain ⟨_, rfl⟩ := h; simp
  case iload => obtain ⟨_, _, rfl⟩ := h; simp
  case ldcW | pop => obtain ⟨_, _, _, rfl⟩ := h; simp
  case istore | dup | swap | iadd | isub | iand | ior => obtain ⟨_, _, _, _, rfl⟩ := h; simp
  case goto => obtain ⟨h, _⟩ | ⟨_, _, _, rfl⟩ := h; cases h; simp
  case ifeq | iflt => obtain ⟨_, _, _, ⟨_, rfl⟩ | ⟨_, _, _, rfl⟩⟩ := h <;> simp
  case ifIcmpeq => obtain ⟨_, _, _, _, ⟨_, rfl⟩ | ⟨_, _, _, rfl⟩⟩ := h <;> simp

/-- The same for the unit. -/
theorem exec_next {i : Instr} {s t : State} (h : exec i s = .next t) :
    Effect Config.unit i s t ∨
      ∃ f info, canRaise i f = true ∧ RaisesWhen Config.unit i s f info ∧ t = s.raise f info :=
  execOn_next ((execOn_unit i s).trans h)

theorem finishStep_next {r : Result} {t : State} (h : finishStep r = .next t) :
    ∃ u, r = .next u ∧ t = u.finish := by
  cases r with
  | next u => exact ⟨u, rfl, next_eq h⟩
  | fault f => cases h
  | refused f => cases h

/-- Everything a step can do when it answers a next state: the unit was RUNNING, and either the
fetch found operand bytes missing or the decoded instruction ran and the end of the run was
tested. -/
theorem stepOn_next {c : Config} {s t : State} (h : stepOn c s = .next t) :
    s.status = .running ∧
      ((∃ n, s.fetch = .error (.missingOperands n) ∧
          t = s.raise .operandFetch (BitVec.ofNat 16 n)) ∨
        ∃ i rest u, s.fetch = .ok (i, rest) ∧ execOn c i s = .next u ∧ t = u.finish) := by
  unfold stepOn at h
  split at h
  · cases h
  · cases h
  · next hr =>
    refine ⟨hr, ?_⟩
    split at h
    · next e he =>
      cases e with
      | noOpcode => cases h
      | missingOperands n => exact .inl ⟨n, he, trap_next h⟩
    · next i rest he =>
      obtain ⟨u, hu, rfl⟩ := finishStep_next h
      exact .inr ⟨i, rest, u, he, hu, rfl⟩

/-- The same for the unit. -/
theorem step_next {s t : State} (h : step s = .next t) :
    s.status = .running ∧
      ((∃ n, s.fetch = .error (.missingOperands n) ∧
          t = s.raise .operandFetch (BitVec.ofNat 16 n)) ∨
        ∃ i rest u, s.fetch = .ok (i, rest) ∧ exec i s = .next u ∧ t = u.finish) := by
  simpa only [execOn_unit] using stepOn_next ((stepOn_unit s).trans h)

end Sys2Proof.Machine
end

