-- ==== Sys2Proof/Laws/Fetch.lean ====
section
/-! SUPPORT. What the fetch reads, and that a table word placed at `pc` is what it reads next. -/

namespace Sys2Proof.Machine

theorem State.fetch_eq (s : State) : s.fetch = decode (s.code.drop s.pc) := rfl

/-- The opcode byte heads the bytes the fetch decodes. -/
theorem drop_of_byte {s : State} {opcode : Byte} (h : s.code[s.pc]? = some opcode) :
    ∃ tail, s.code.drop s.pc = opcode :: tail ∧
      s.pc + 1 + tail.length = s.code.length := by
  obtain ⟨hl, rfl⟩ := List.getElem?_eq_some_iff.mp h
  refine ⟨s.code.drop (s.pc + 1), List.drop_eq_getElem_cons hl, ?_⟩
  simp; omega

/-- Bytes laid at an index are read back from it. -/
theorem Store.bytesFrom_place (m : Store) (addr : Nat) (bytes : List Byte) :
    Store.bytesFrom (Store.place m addr bytes) addr = bytes ++ m.drop (addr + bytes.length) := by
  have hl : (m.take addr ++ List.replicate (addr - m.length) 0#8).length = addr := by
    simp; omega
  unfold Store.bytesFrom Store.place
  rw [List.append_assoc (m.take addr ++ _)]
  exact List.drop_left' hl

/-- The next fetch after `withFetchWord` decodes the table word, then what the stream held. -/
theorem fetch_withFetchWord (s : State) (nbits w : Nat) :
    (s.withFetchWord nbits w).fetch =
      decode (tableWordBytes nbits w ++ s.code.drop (s.pc + 3)) :=
  congrArg decode (Store.bytesFrom_place s.code s.pc (tableWordBytes nbits w))

end Sys2Proof.Machine
end

