-- ==== Sys2Proof/Laws/Load.lean ====
section
/-! SUPPORT. What the load of an image can do, and the limit that PC_WIDTH sets it. -/

namespace Sys2Proof.Machine

/-- Everything a load can do when it answers a next state: the image has its pool and a stream whose
length `pc` can hold, and the state is that of R28. -/
theorem State.loadOn_next {c : Config} {image : List Byte} {t : State}
    (h : State.loadOn c image = .next t) :
    ∃ n rest, image = n :: rest ∧ n.toNat ≤ rest.length ∧
      (rest.drop n.toNat).length ≤ c.maxCodeLen ∧
      t = State.loaded (rest.take n.toNat) (rest.drop n.toNat) := by
  unfold State.loadOn at h
  split at h
  · cases h
  · next n rest =>
    split at h
    · cases h
    · next hn =>
      split at h
      · cases h
      · next hc =>
        exact ⟨n, rest, rfl, Nat.not_lt.mp hn, Nat.not_lt.mp hc, by simpa [eq_comm] using h⟩

/-- An image with its pool and a stream whose length `pc` can hold is loaded. -/
theorem State.loadOn_ok {c : Config} {n : Byte} {rest : List Byte} (hn : n.toNat ≤ rest.length)
    (hc : (rest.drop n.toNat).length ≤ c.maxCodeLen) :
    State.loadOn c (n :: rest) =
      .next (State.loaded (rest.take n.toNat) (rest.drop n.toNat)) := by
  simp only [State.loadOn, if_neg (Nat.not_lt.mpr hn), if_neg (Nat.not_lt.mpr hc)]

/-- A length is at most `2^PC_WIDTH - 1` when it is below `2^PC_WIDTH` (R114). -/
theorem Config.le_maxCodeLen (c : Config) (n : Nat) : n ≤ c.maxCodeLen ↔ n < 2 ^ c.pcWidth := by
  have := Nat.two_pow_pos c.pcWidth
  unfold Config.maxCodeLen
  omega

end Sys2Proof.Machine
end

