-- ==== Sys2Proof/Laws/Memory.lean ====
section
/-! SUPPORT. The laws of the indexed space: a read after a write, and the canonical form, which every
write keeps. -/

namespace Sys2Proof.Machine

@[simp] theorem Memory.read_nil (i : Nat) : Memory.read [] i = 0#8 := rfl

@[simp] theorem Memory.read_cons (k : Nat) (v : Byte) (rest : Memory) (i : Nat) :
    Memory.read ((k, v) :: rest) i = if k = i then v else Memory.read rest i := rfl

theorem Memory.read_insert (m : Memory) (i k : Nat) (v : Byte) (h : ∀ c ∈ m, c.1 ≠ i) :
    Memory.read (Memory.insert m i v) k = if k = i then v else Memory.read m k := by
  induction m with
  | nil => simp [Memory.insert, eq_comm]
  | cons c rest ih =>
    obtain ⟨j, w⟩ := c
    have hj : j ≠ i := h (j, w) (by simp)
    have hrest := ih fun c hc => h c (by simp [hc])
    unfold Memory.insert
    split
    · simp only [Memory.read_cons, eq_comm]
    · simp only [Memory.read_cons, hrest]
      by_cases hk : k = i
      · simp [hk, hj]
      · simp [hk]

theorem Memory.erase_absent (m : Memory) (i : Nat) : ∀ c ∈ Memory.erase m i, c.1 ≠ i := by
  intro c hc
  simpa [Memory.erase] using (List.mem_filter.mp hc).2

theorem Memory.read_erase (m : Memory) (i k : Nat) :
    Memory.read (Memory.erase m i) k = if k = i then 0#8 else Memory.read m k := by
  induction m with
  | nil => simp [Memory.erase]
  | cons c rest ih =>
    obtain ⟨j, w⟩ := c
    unfold Memory.erase at ih ⊢
    by_cases hj : j = i
    · by_cases hk : k = i <;> simp_all [eq_comm]
    · rw [List.filter_cons_of_pos (by simpa using hj)]
      simp only [Memory.read_cons, ih]
      by_cases hk : k = i
      · simp [hk, hj]
      · simp [hk]

/-- A read after a write: the byte written at its index, and every other index as before. It needs
no canonical form. -/
theorem Memory.read_write (m : Memory) (i k : Nat) (v : Byte) :
    Memory.read (Memory.write m i v) k = if k = i then v else Memory.read m k := by
  unfold Memory.write
  split
  · next hv => rw [Memory.read_erase, hv]
  · rw [Memory.read_insert _ _ _ _ (Memory.erase_absent m i), Memory.read_erase]
    by_cases hk : k = i <;> simp [hk]

theorem Memory.mem_insert (m : Memory) (i : Nat) (v : Byte) (c : Host.Cell) :
    c ∈ Memory.insert m i v ↔ c = (i, v) ∨ c ∈ m := by
  induction m with
  | nil => simp [Memory.insert]
  | cons d rest ih =>
    obtain ⟨j, w⟩ := d
    unfold Memory.insert
    split
    · simp
    · simp only [List.mem_cons, ih]; tauto

/-- What a write can list: the entry written, when it is not zero, and the entries of other
indices. -/
theorem Memory.mem_write (m : Memory) (i : Nat) (v : Byte) (c : Host.Cell)
    (h : c ∈ Memory.write m i v) : c = (i, v) ∧ v ≠ 0#8 ∨ c ∈ m := by
  unfold Memory.write at h
  split at h
  · exact .inr (List.mem_of_mem_filter h)
  · next hv =>
    rcases (Memory.mem_insert _ _ _ _).mp h with rfl | hc
    · exact .inl ⟨rfl, hv⟩
    · exact .inr (List.mem_of_mem_filter hc)

theorem Memory.pairwise_insert (m : Memory) (i : Nat) (v : Byte)
    (hm : m.Pairwise fun c d => c.1 < d.1) (hi : ∀ c ∈ m, c.1 ≠ i) :
    (Memory.insert m i v).Pairwise fun c d => c.1 < d.1 := by
  induction m with
  | nil => simp [Memory.insert]
  | cons d rest ih =>
    obtain ⟨j, w⟩ := d
    have hj : j ≠ i := hi (j, w) (by simp)
    obtain ⟨hd, hr⟩ := List.pairwise_cons.mp hm
    unfold Memory.insert
    split
    · next hlt =>
      refine List.pairwise_cons.mpr ⟨fun c hc => ?_, hm⟩
      rcases List.mem_cons.mp hc with rfl | hc
      · exact hlt
      · exact Nat.lt_trans hlt (hd c hc)
    · next hge =>
      refine List.pairwise_cons.mpr ⟨fun c hc => ?_, ih hr fun c hc => hi c (by simp [hc])⟩
      rcases (Memory.mem_insert _ _ _ _).mp hc with rfl | hc
      · change j < i; omega
      · exact hd c hc

/-- The canonical form in words. -/
theorem Memory.wf_iff (m : Memory) :
    Memory.wf m = true ↔ (m.Pairwise fun c d => c.1 < d.1) ∧ ∀ c ∈ m, c.2 ≠ 0#8 := by
  simp [Memory.wf]

/-- Every write keeps the canonical form. -/
theorem Memory.wf_write (m : Memory) (i : Nat) (v : Byte) (h : Memory.wf m = true) :
    Memory.wf (Memory.write m i v) = true := by
  rw [Memory.wf_iff] at h ⊢
  obtain ⟨hp, hz⟩ := h
  refine ⟨?_, fun c hc => ?_⟩
  · have he : (Memory.erase m i).Pairwise fun c d => c.1 < d.1 := hp.filter _
    unfold Memory.write
    split
    · exact he
    · exact Memory.pairwise_insert _ _ _ he (Memory.erase_absent m i)
  · rcases Memory.mem_write m i v c hc with ⟨rfl, hv⟩ | hc
    · exact hv
    · exact hz c hc

/-- The memory after reset is in canonical form. -/
theorem Memory.wf_reset : Memory.wf State.reset.lv = true := rfl

end Sys2Proof.Machine
end

