-- ==== Sys2Proof/Laws/PerInstr.lean ====
section
/-! SUPPORT. Statements about every instruction, one lemma per constructor: what the decoder reads
from an instruction's bytes, and how many bytes there are. -/

namespace Sys2Proof.Laws.RoundTrip

/-- The decoder reads a well-formed instruction back from its bytes, whatever follows them. -/
def Statement (i : Instr) : Prop :=
  i.wf = true → ∀ rest : List Byte, decode (encode i ++ rest) = .ok (i, rest)

theorem nop : Statement .nop := fun _ _ => rfl
theorem bipush (imm8 : Byte) : Statement (.bipush imm8) := fun _ _ => rfl
theorem ldcW (index16 : Half) : Statement (.ldcW index16) := by
  intro _ rest; simp [encode, decode, formatOf]
theorem iload (index8 : Byte) : Statement (.iload index8) := fun _ _ => rfl
theorem istore (index8 : Byte) : Statement (.istore index8) := fun _ _ => rfl
theorem pop : Statement .pop := fun _ _ => rfl
theorem dup : Statement .dup := fun _ _ => rfl
theorem swap : Statement .swap := fun _ _ => rfl
theorem iadd : Statement .iadd := fun _ _ => rfl
theorem isub : Statement .isub := fun _ _ => rfl
theorem iand : Statement .iand := fun _ _ => rfl
theorem ior : Statement .ior := fun _ _ => rfl
theorem iinc (index8 imm8 : Byte) : Statement (.iinc index8 imm8) := fun _ _ => rfl
theorem ifeq (offset16 : Half) : Statement (.ifeq offset16) := by
  intro _ rest; simp [encode, decode, formatOf]
theorem iflt (offset16 : Half) : Statement (.iflt offset16) := by
  intro _ rest; simp [encode, decode, formatOf]
theorem ifIcmpeq (offset16 : Half) : Statement (.ifIcmpeq offset16) := by
  intro _ rest; simp [encode, decode, formatOf]
theorem goto (offset16 : Half) : Statement (.goto offset16) := by
  intro _ rest; simp [encode, decode, formatOf]
theorem ireturn : Statement .ireturn := fun _ _ => rfl
theorem invokevirtual : Statement .invokevirtual := fun _ _ => rfl
theorem unlisted (opcode : Byte) : Statement (.unlisted opcode) := fun h rest =>
  decode_f1 (formatOf_unlisted ((wf_unlisted_iff opcode).mp h)) rest

end Sys2Proof.Laws.RoundTrip

namespace Sys2Proof.Laws.EncodingLength

/-- An instruction has 1, 2 or 3 bytes (R45). -/
def Statement (i : Instr) : Prop := 1 ≤ (encode i).length ∧ (encode i).length ≤ 3

theorem nop : Statement .nop := by simp [Statement, encode]
theorem bipush (imm8 : Byte) : Statement (.bipush imm8) := by simp [Statement, encode]
theorem ldcW (index16 : Half) : Statement (.ldcW index16) := by simp [Statement, encode]
theorem iload (index8 : Byte) : Statement (.iload index8) := by simp [Statement, encode]
theorem istore (index8 : Byte) : Statement (.istore index8) := by simp [Statement, encode]
theorem pop : Statement .pop := by simp [Statement, encode]
theorem dup : Statement .dup := by simp [Statement, encode]
theorem swap : Statement .swap := by simp [Statement, encode]
theorem iadd : Statement .iadd := by simp [Statement, encode]
theorem isub : Statement .isub := by simp [Statement, encode]
theorem iand : Statement .iand := by simp [Statement, encode]
theorem ior : Statement .ior := by simp [Statement, encode]
theorem iinc (index8 imm8 : Byte) : Statement (.iinc index8 imm8) := by simp [Statement, encode]
theorem ifeq (offset16 : Half) : Statement (.ifeq offset16) := by simp [Statement, encode]
theorem iflt (offset16 : Half) : Statement (.iflt offset16) := by simp [Statement, encode]
theorem ifIcmpeq (offset16 : Half) : Statement (.ifIcmpeq offset16) := by simp [Statement, encode]
theorem goto (offset16 : Half) : Statement (.goto offset16) := by simp [Statement, encode]
theorem ireturn : Statement .ireturn := by simp [Statement, encode]
theorem invokevirtual : Statement .invokevirtual := by simp [Statement, encode]
theorem unlisted (opcode : Byte) : Statement (.unlisted opcode) := by simp [Statement, encode]

end Sys2Proof.Laws.EncodingLength
end

