-- ==== Sys2Proof/Tests/Slice0.lean ====
section
/-! SUPPORT. The model's own tests: the well-formedness smoke test, words written out from the spec's
encodings, one step per instruction with the results of spec/95_test_vectors.md, and a witness for
the hypotheses of every statement. -/

namespace Sys2Proof.Tests

open Sys2Proof Sys2Proof.Machine Sys2Proof.Claims

/-- A RUNNING unit at index 0 of a code, with a stack written bottom first as the spec's vectors
are. -/
def unit (code stack : List Byte) : State :=
  { State.reset with code := code, stack := stack.reverse, status := .running }

/-- The same with local variables and a constant pool. -/
def unitWith (code stack cp : List Byte) (lv : Memory) : State :=
  { unit code stack with cp := cp, lv := lv }

/-- The same at another index. -/
def unitAt (pc : Nat) (code stack : List Byte) : State := { unit code stack with pc := pc }

/-- Whether an answer is a next state with a property. -/
def nextHas (r : Result) (p : State → Bool) : Bool :=
  match r with
  | .next t => p t
  | .fault _ | .refused _ => false

/-- The state has this stack, bottom first, and this `pc`, and no fault. -/
def stackPc (stack : List Byte) (pc : Nat) (t : State) : Bool :=
  t.stack == stack.reverse && t.pc == pc && t.status != .fault

/-- The state is faulted with these registers. -/
def faultIs (cause : BitVec 5) (fpc : Nat) (info : Half) (t : State) : Bool :=
  t.status == .fault && t.cause == cause && t.fpc == fpc && t.finfo == info && t.pc == fpc

/-- A stack of two entries, and one of unbounded depth over four locals. -/
def smallStack : Config := { localsSize := 1000, stackDepth := some 2, pcWidth := 16 }
def fewLocals : Config := { localsSize := 4, stackDepth := none, pcWidth := 16 }

/-! ### Well-formedness, decoding -/

/-- The one check refuses a named opcode in the catch-all. -/
theorem test_wf_refuses_named_unlisted :
    (Instr.unlisted 0x60).wf = false ∧ (Instr.unlisted 0x00).wf = false := by decide

theorem test_wf_admits : (Instr.unlisted 0x01).wf = true ∧ (Instr.ldcW 0xFFFF).wf = true := by
  decide

/-- R50: the opcodes of each format, in binary, with the operand bytes of R46 to R49. -/
theorem test_decode_f1 :
    [0b00000000, 0b01010111, 0b01011001, 0b01011111, 0b01100000, 0b01100100, 0b01111110,
      0b10000000, 0b10101100, 0b10110110, 0b11111111].map (decodeTableWord 8) =
    [some .nop, some .pop, some .dup, some .swap, some .iadd, some .isub, some .iand,
      some .ior, some .ireturn, some .invokevirtual, some (.unlisted 0xFF)] := by decide

theorem test_decode_f2 :
    [0x8010, 0xFF15, 0xC836].map (decodeTableWord 16) =
      [some (.bipush 0x80), some (.iload 0xFF), some (.istore 200)] := by decide

theorem test_decode_f3 :
    [0x020113, 0xFF0384, 0x100099, 0x05009B, 0x06009F, 0xF1FFA7].map (decodeTableWord 24) =
      [some (.ldcW 0x0102), some (.iinc 3 0xFF), some (.ifeq 16), some (.iflt 5),
        some (.ifIcmpeq 6), some (.goto 0xFFF1)] := by decide

theorem test_encode_goto : encode (.goto 0xFFF1) = [0xA7, 0xFF, 0xF1] := by decide

/-- R11, R49: the signed and unsigned readings at their corners. -/
theorem test_readings :
    signed 0x80 = -128 ∧ signed 0x7F = 127 ∧ u8 (-128) = 0x80 ∧ branchOffset 0x8000 = -32768 ∧
      branchOffset 0x7FFF = 32767 ∧ localIndex 0xFF = 255 ∧ constIndex 0xFFFF = 65535 := by decide

/-! ### One step of each instruction (spec/95_test_vectors.md section 2) -/

theorem test_bipush : nextHas (step (unit [0x10, 0x80] [])) (stackPc [0x80] 2) = true := by decide
theorem test_bipush_cut_off :
    nextHas (step (unit [0x10] [])) (faultIs operandFetch 0 1) = true := by decide
theorem test_bipush_overflow :
    nextHas (stepOn smallStack (unit [0x10, 3] [1, 2])) (faultIs stackOverflow 0 0) = true := by
  decide
theorem test_dup : nextHas (step (unit [0x59, 0] [4])) (stackPc [4, 4] 1) = true := by decide
theorem test_dup_empty :
    nextHas (step (unit [0x59] [])) (faultIs stackUnderflow 0 0) = true := by decide
theorem test_ldc_w :
    nextHas (step (unitWith [0x13, 0, 1] [] [1, 0xFE] [])) (fun t => stackPc [0xFE] 3 t &&
      t.status == .done) = true := by decide
theorem test_ldc_w_high_byte_counts :
    nextHas (step (unitWith [0x13, 1, 0] [] [1, 2] [])) (faultIs constIndexFault 0 0x0100) =
      true := by decide
theorem test_nop : nextHas (step (unit [0x00, 0x00] [7])) (stackPc [7] 1) = true := by decide
theorem test_pop : nextHas (step (unit [0x57] [3])) (stackPc [] 1) = true := by decide
theorem test_swap : nextHas (step (unit [0x5F] [9, 1, 2])) (stackPc [9, 2, 1] 1) = true := by decide
theorem test_swap_lone_entry_stays :
    nextHas (step (unit [0x5F] [1])) (fun t => faultIs stackUnderflow 0 1 t && t.stack == [1]) =
      true := by decide
theorem test_iadd_wraps :
    nextHas (step (unit [0x60] [127, 1])) (stackPc [0x80] 1) = true := by decide
theorem test_iadd_no_overflow_of_full_stack :
    nextHas (stepOn smallStack (unit [0x60] [1, 2])) (stackPc [3] 1) = true := by decide
theorem test_isub_top_minus_below :
    nextHas (step (unit [0x64] [5, 3])) (stackPc [0xFE] 1) = true := by decide
theorem test_isub_wraps :
    nextHas (step (unit [0x64] [1, 0x80])) (stackPc [127] 1) = true := by decide
theorem test_iand : nextHas (step (unit [0x7E] [0xAA, 0xCC])) (stackPc [0x88] 1) = true := by decide
theorem test_ior : nextHas (step (unit [0x80] [0xAA, 0xCC])) (stackPc [0xEE] 1) = true := by decide
theorem test_iinc_wraps :
    nextHas (step (unitWith [0x84, 3, 0xFF] [] [] [(3, 0x80)])) (fun t => t.lv == [(3, 127)] &&
      stackPc [] 3 t) = true := by decide
theorem test_iinc_to_zero_lists_nothing :
    nextHas (step (unitWith [0x84, 0, 0xFB] [] [] [(0, 5)])) (fun t => t.lv == []) = true := by decide
theorem test_iload_unwritten_slot :
    nextHas (step (unit [0x15, 0xFF] [])) (stackPc [0] 2) = true := by decide
theorem test_iload_bad_slot :
    nextHas (stepOn fewLocals (unit [0x15, 4] [])) (faultIs localIndexFault 0 4) = true := by decide
theorem test_istore :
    nextHas (step (unitWith [0x36, 3] [7] [] [(1, 1), (9, 9)])) (fun t => stackPc [] 2 t &&
      t.lv == [(1, 1), (3, 7), (9, 9)]) = true := by decide
theorem test_istore_underflow_before_bad_slot :
    nextHas (stepOn fewLocals (unit [0x36, 9] [])) (faultIs stackUnderflow 0 0) = true := by decide
theorem test_goto_negative_target :
    nextHas (step (unitAt 1 [0x00, 0xA7, 0xFF, 0xFE] [])) (faultIs branchTarget 1 0xFFFE) =
      true := by decide
theorem test_goto_end_of_stream :
    nextHas (step (unitAt 1 [0x00, 0xA7, 0x00, 0x03] [])) (fun t => t.pc == 4 &&
      t.status == .done) = true := by decide
theorem test_ifeq_taken_out_of_range_pops_nothing :
    nextHas (step (unitAt 2 [0x10, 0x00, 0x99, 0x00, 0x06, 0x10, 0x09] [0])) (fun t =>
      faultIs branchTarget 2 6 t && t.stack == [0]) = true := by decide
theorem test_ifeq_not_taken_ignores_offset :
    nextHas (step (unit [0x99, 0x7F, 0xFF, 0x00] [1])) (stackPc [] 3) = true := by decide
theorem test_iflt_taken :
    nextHas (step (unit [0x9B, 0x00, 0x05, 0, 0, 0] [0x80])) (stackPc [] 5) = true := by decide
theorem test_iflt_zero_not_taken :
    nextHas (step (unit [0x9B, 0x00, 0x05, 0, 0, 0] [0])) (stackPc [] 3) = true := by decide
theorem test_if_icmpeq_taken :
    nextHas (step (unit [0x9F, 0, 6, 0, 0, 0, 0] [0xFE, 2, 2, 2])) (stackPc [0xFE, 2] 6) =
      true := by decide
theorem test_if_icmpeq_not_taken :
    nextHas (step (unit [0x9F, 0, 6, 0, 0, 0, 0] [1, 2])) (stackPc [] 3) = true := by decide
theorem test_ireturn :
    nextHas (step (unit [0xAC] [])) (faultIs unsupportedOpcode 0 0xAC) = true := by decide
theorem test_invokevirtual :
    nextHas (step (unitAt 2 [0x10, 0x01, 0xB6, 0x10, 0x02] [1])) (fun t =>
      faultIs unsupportedOpcode 2 0xB6 t && t.stack == [1]) = true := by decide
theorem test_unlisted :
    nextHas (step (unit [0xFF] [])) (faultIs unsupportedOpcode 0 0xFF) = true := by decide

/-! ### Reset and load (spec/95_test_vectors.md section 2.1) -/

theorem test_load_splits :
    nextHas (State.load [0x02, 0x01, 0xFE, 0x13, 0x00, 0x01]) (fun t => t.cp == [1, 0xFE] &&
      t.code == [0x13, 0, 1] && t.status == .running && t.pc == 0) = true := by decide
theorem test_load_truncated :
    State.load [0x05] = .refused .truncatedInput ∧
      State.load [0x02, 0x09] = .refused .truncatedInput := ⟨rfl, rfl⟩
theorem test_step_runs_the_fetch_word :
    nextHas (step (State.reset.withFetchWord 24 0x05FF84)) (fun t => t.readLocal 0xFF == 5) =
      true := by decide

/-! ### Witnesses: the hypotheses of each statement can be met together -/

theorem witness_OpcodeMapWithOperands :
    (0x01#8 : Byte) ∉ namedOpcodes ∧ (0xFF#8 : Byte) ∉ namedOpcodes := by decide

theorem witness_LengthFollowsFromOpcode :
    0x00 ∈ opcodesF1 ∧ 0x80 ∈ opcodesF1 ∧ 0x10 ∈ opcodesF2 ∧ 0x36 ∈ opcodesF2 ∧
      0x13 ∈ opcodesF3 ∧ 0xA7 ∈ opcodesF3 ∧
      ∀ b ∈ [0xAC, 0xB6, 0x01, 0xFF], b ∉ opcodesF1 ∧ b ∉ opcodesF2 ∧ b ∉ opcodesF3 := by decide

theorem witness_DecodeOfEncodeIsIdentity :
    (Instr.iinc 0xFF 0x80).wf = true ∧ (Instr.unlisted 0x01).wf = true := by decide

theorem witness_DecodedBytesAreTheEncoding :
    decode [0xA7, 0xFF, 0xF1, 0x00] = .ok (.goto 0xFFF1, [0x00]) ∧
      (Instr.goto 0xFFF1).wf = true ∧
      encode (.goto 0xFFF1) ++ [] = encode (.goto 0xFFF1) ++ [] := ⟨rfl, rfl, rfl⟩

theorem witness_StepRunsDecodedInstruction :
    (unit [0x10, 5, 0] []).status = .running ∧
      decode ((unit [0x10, 5, 0] []).code.drop (unit [0x10, 5, 0] []).pc) =
        .ok (.bipush 5, [0]) ∧
      ∃ t, exec (.bipush 5) (unit [0x10, 5, 0] []) = .next t := ⟨rfl, rfl, _, rfl⟩

/-- One operand byte missing of one, one of two, two of two. -/
theorem witness_CutOffOperandsRaiseOperandFetch :
    (unit [0x10] []).status = .running ∧ (unit [0x10] []).code[0]? = some 0x10 ∧
      (unit [0x10] []).code.length < 0 + 2 ∧ (0x10 : Byte) ∈ opcodesF2 ∧
      (unit [0x84, 0] []).code[0]? = some 0x84 ∧ (unit [0x84, 0] []).code.length < 0 + 3 ∧
      (unit [0x84] []).code[0]? = some 0x84 ∧ (unit [0x84] []).code.length < 0 + 3 ∧
      (0x84 : Byte) ∈ opcodesF3 := by decide

theorem witness_UnsupportedOpcodeRaisedAtDecode :
    (unit [0xB6] []).status = .running ∧ (unit [0xB6] []).code[0]? = some 0xB6 ∧
      (unit [0xAC] []).code[0]? = some 0xAC ∧
      (unit [0x01] []).code[0]? = some 0x01 ∧ (0x01 : Byte) ∉ namedOpcodes := by decide

theorem witness_UnimplementedInstructionsFault : (0xFF : Byte) ∉ namedOpcodes := by decide

theorem witness_EveryRunningStateHasASuccessor :
    (unit [0x00] []).status = .running ∧ (unit [0x00] []).pc < (unit [0x00] []).code.length ∧
      State.reset.status ≠ .running := by decide

theorem witness_FaultIsTerminalUntilReset :
    (faulted (unit [0xFF] []) unsupportedOpcode 0xFF).status = .fault ∧
      Reaches (faulted (unit [0xFF] []) unsupportedOpcode 0xFF)
        (faulted (unit [0xFF] []) unsupportedOpcode 0xFF) ∧
      ∃ t, State.load [0x00, 0xFF] = .next t := ⟨rfl, .refl _, _, rfl⟩

theorem witness_FaultEntryIsPreciseAndJustified :
    ∃ t, step (unit [0x60] [7]) = .next t ∧ t.status = .fault := ⟨_, rfl, rfl⟩

theorem witness_FaultRegistersChangeOnlyByAFault :
    ∃ t, step (unit [0x60] [7, 8]) = .next t ∧ t.status ≠ .fault := ⟨_, rfl, by decide⟩

theorem witness_ShallowStackRaisesUnderflow :
    (unit [0x59] []).stack.length < 1 ∧ (unit [0x5F] []).stack.length < 2 ∧
      (unit [0x5F] [1]).stack.length < 2 := by decide

/-- Targets one below 0 and one above CODE_LEN; the first slot and the first pool index that do not
exist; and a unit of 256 slots, whose last slot index 255 names. -/
theorem witness_OutOfBoundsAccessKinds :
    ¬ LegalTarget (unitAt 1 [0x00, 0xA7, 0xFF, 0xFE] []) 0xFFFE ∧
      ¬ LegalTarget (unitAt 1 [0x00, 0xA7, 0x00, 0x04] []) 0x0004 ∧
      LegalTarget (unitAt 1 [0x00, 0xA7, 0x00, 0x03] []) 0x0003 ∧
      (unit [] [1, 0]).stack = 0 :: [1] ∧ (0xFF#8 : Byte).toInt < 0 ∧
      (unit [] [3, 3]).stack = 3 :: 3 :: [] ∧
      fewLocals.localsSize ≤ (4 : Byte).toNat ∧ (unit [] [1]).stack ≠ [] ∧
      256 ≤ { fewLocals with localsSize := 256 }.localsSize ∧
      (unitWith [] [] [1, 2] []).cp.length ≤ (2 : Half).toNat := by
  unfold LegalTarget; decide

/-- The one fault an ISTORE of the last slot can still take on a unit of 256 slots. -/
theorem witness_OutOfBoundsAccessKinds_large :
    (unit [0x36, 0xFF] []).status ≠ .fault ∧
      ∃ t, execOn { fewLocals with localsSize := 256 } (.istore 0xFF) (unit [0x36, 0xFF] []) =
        .next t ∧ t.status = .fault := ⟨by decide, _, rfl, rfl⟩

/-- An ILOAD of the last slot there is, onto a stack with room for one entry; the next slot, and a
full stack, are outside. -/
theorem witness_ParametersMatterOnlyAtTheirBounds :
    WithinParameters { fewLocals with stackDepth := some 2 } (.iload 3) (unit [0x15, 3] [1]) ∧
      ¬ WithinParameters { fewLocals with stackDepth := some 2 } (.iload 4) (unit [0x15, 4] [1]) ∧
      ¬ WithinParameters { fewLocals with stackDepth := some 2 } (.iload 3)
        (unit [0x15, 3] [1, 2]) ∧
      ∀ i rest, decode ((unit [0x15, 3] [1]).code.drop (unit [0x15, 3] [1]).pc) = .ok (i, rest) →
        WithinParameters { fewLocals with stackDepth := some 2 } i (unit [0x15, 3] [1]) := by
  have hw : WithinParameters { fewLocals with stackDepth := some 2 } (.iload 3)
      (unit [0x15, 3] [1]) := by
    refine ⟨fun _ depth h => ?_, fun x h => ?_⟩ <;> cases h <;> decide
  refine ⟨hw, fun h => absurd (h.2 4 rfl) (by decide), fun h => absurd (h.1 rfl 2 rfl) (by decide),
    fun i rest h => ?_⟩
  cases h
  exact hw

theorem witness_FullFiniteStackOverflows :
    smallStack.stackDepth = some (unit [] [1, 2]).stack.length ∧ (unit [] [1, 2]).stack ≠ [] ∧
      (0 : Half).toNat < (unitWith [] [1, 2] [7] []).cp.length ∧
      (0xFF : Byte).toNat < smallStack.localsSize ∧ Config.unit.stackDepth = none ∧
      (∃ t, execOn smallStack .iadd (unit [] [1]) = .next t ∧ t.status = .fault) ∧
      (unit [] [1]).status ≠ .fault :=
  ⟨rfl, by decide, by decide, by decide, rfl, ⟨_, rfl, rfl⟩, by decide⟩

theorem witness_FaultPriority :
    (unit [0xB6] []).code[0]? = some 0xB6 ∧ (unit [0x36] []).code[0]? = some 0x36 ∧
      (0x36 : Byte) ∈ opcodesF2 ∧ (unit [0x36] []).code.length < 0 + 2 ∧
      (unit [0x36, 9] []).stack = [] ∧ (unit [] [1]).stack.length < 2 ∧
      (unitWith [] [] [7] []).cp.length ≤ (5 : Half).toNat ∧
      fewLocals.localsSize ≤ (9 : Byte).toNat := by decide

theorem witness_FaultsEachInstructionCanRaise :
    (unit [0x57] []).status = .running ∧
      (∃ t, execOn Config.unit .pop (unit [0x57] []) = .next t ∧ t.status = .fault) ∧
      (∃ t, stepOn Config.unit (unit [0x57] []) = .next t ∧ t.status = .fault) ∧
      ∃ t, execOn Config.unit .ireturn (unit [0xAC] []) = .next t :=
  ⟨rfl, ⟨_, rfl, rfl⟩, ⟨_, rfl, rfl⟩, _, rfl⟩

theorem witness_NopOnlyAdvancesPc : (Instr.pop) ≠ .nop := by decide

theorem witness_BipushPushesImmediate :
    smallStack.stackDepth = some (unit [0x10, 3] [1, 2]).stack.length := rfl

theorem witness_DupCopiesTop :
    (unit [0x59] [4]).stack = 4 :: [] ∧ (unit [0x59] []).stack = [] ∧
      (unit [0x59] [1, 2]).stack ≠ [] ∧
      smallStack.stackDepth = some (unit [0x59] [1, 2]).stack.length := by decide

/-- The last index of the pool and the first beyond it. -/
theorem witness_LdcWPushesConstant :
    (1 : Half).toNat < (unitWith [] [1, 2] [1, 0xFE] []).cp.length ∧
      (unitWith [] [1, 2] [1, 0xFE] []).cp.length ≤ (2 : Half).toNat ∧
      smallStack.stackDepth = some (unitWith [] [1, 2] [1, 0xFE] []).stack.length := by decide

theorem witness_PopDiscardsTop :
    (unit [0x57] [3]).stack = 3 :: [] ∧ (unit [0x57] []).stack = [] := by decide

theorem witness_SwapExchangesTopTwo :
    (unit [0x5F] [9, 1, 2]).stack = 2 :: 1 :: [9] ∧ (unit [0x5F] [1]).stack.length < 2 ∧
      2 ≤ (unit [0x5F] [1, 2]).stack.length := by decide

/-- One witness for the four ALU instructions, whose hypotheses are the same. -/
theorem witness_IaddPushesWrappedSum :
    (unit [0x60] [127, 1]).stack = 1 :: 127 :: [] ∧ (unit [0x60] [7]).stack.length < 2 ∧
      (unit [0x60] []).stack.length < 2 := by decide

theorem witness_IsubPushesTopMinusBelow :
    (unit [0x64] [5, 3]).stack = 3 :: 5 :: [] ∧ (unit [0x64] [7]).stack.length < 2 := by decide

theorem witness_IandPushesBitwiseAnd :
    (unit [0x7E] [0xAA, 0xCC]).stack = 0xCC :: 0xAA :: [] ∧
      (unit [0x7E] []).stack.length < 2 := by decide

theorem witness_IorPushesBitwiseOr :
    (unit [0x80] [0xAA, 0xCC]).stack = 0xCC :: 0xAA :: [] ∧
      (unit [0x80] []).stack.length < 2 := by decide

/-- Each range of the sum at the values where it meets the next. -/
theorem witness_AdditionWrapsAtTheSignedBoundary :
    (127#8 : Byte).toInt + (0#8 : Byte).toInt = 127 ∧
      127 < (127#8 : Byte).toInt + (1#8 : Byte).toInt ∧
      (0x80#8 : Byte).toInt + (0#8 : Byte).toInt = -128 ∧
      (0x80#8 : Byte).toInt + (0xFF#8 : Byte).toInt < -128 := by decide

theorem witness_SubtractionWrapsAtTheSignedBoundary :
    (127#8 : Byte).toInt - (0#8 : Byte).toInt = 127 ∧
      127 < (127#8 : Byte).toInt - (0xFF#8 : Byte).toInt ∧
      (0x80#8 : Byte).toInt - (0#8 : Byte).toInt = -128 ∧
      (0x80#8 : Byte).toInt - (1#8 : Byte).toInt < -128 := by decide

theorem witness_IincAddsImmediateToSlot : fewLocals.localsSize ≤ (4 : Byte).toNat := by decide

theorem witness_IloadPushesSlot :
    fewLocals.localsSize ≤ (4 : Byte).toNat ∧ (0xFF : Byte).toNat < smallStack.localsSize ∧
      smallStack.stackDepth = some (unit [0x15, 3] [1, 2]).stack.length ∧
      ∃ s, State.load [0x00, 0x15, 0xFF] = .next s ∧ RunsWithoutWriting 0xFF s s :=
  ⟨by decide, by decide, rfl, _, rfl, .refl _⟩

theorem witness_IstoreMovesTopToSlot :
    (unit [0x36, 3] [7]).stack = 7 :: [] ∧ (unit [0x36, 3] []).stack = [] ∧
      (unit [0x36, 4] [7]).stack ≠ [] ∧ fewLocals.localsSize ≤ (4 : Byte).toNat := by decide

/-- ISTORE 200, then one NOP that spares the slot, then ILOAD 200 (the source's example X9). -/
theorem witness_LoadAfterStoreReadsStoredByte :
    ∃ t u v, (unit [0x36, 200, 0x00, 0x15, 200] [0xD6]).fetch =
        .ok (.istore 200, [0x00, 0x15, 200]) ∧
      writesSlot (.istore 200) = some 200 ∧
      step (unit [0x36, 200, 0x00, 0x15, 200] [0xD6]) = .next t ∧ t.status ≠ .fault ∧
      RunsWithoutWriting 200 t u ∧ u.fetch = .ok (.iload 200, []) ∧ step u = .next v ∧
      (∃ x, exec (.istore 200) (unit [] [1]) = .next x) ∧ (3 : Byte) ≠ 200 := by
  refine ⟨_, _, _, rfl, rfl, rfl, by decide, .tail (.refl _) rfl ?_, rfl, rfl, ⟨_, rfl⟩, by decide⟩
  intro j rest h
  cases h
  decide

/-- A load, one NOP that writes no slot, then ILOAD of the last slot a byte names. -/
theorem witness_UnwrittenSlotReadsZero :
    ∃ s u v, State.load [0x00, 0x00, 0x15, 0xFF] = .next s ∧ RunsWithoutWriting 0xFF s u ∧
      u.fetch = .ok (.iload 0xFF, []) ∧ step u = .next v := by
  refine ⟨_, _, _, rfl, .tail (.refl _) rfl ?_, rfl, rfl⟩
  intro j rest h
  cases h
  decide

/-- The same with an IINC. -/
theorem witness_UnwrittenSlotReadsZero_iinc :
    ∃ s v, State.load [0x00, 0x84, 0xFF, 0x80] = .next s ∧ RunsWithoutWriting 0xFF s s ∧
      s.fetch = .ok (.iinc 0xFF 0x80, []) ∧ step s = .next v :=
  ⟨_, _, rfl, .refl _, rfl, rfl⟩

theorem witness_LargeRegisterFilesAreIndistinguishable :
    256 ≤ Config.unit.localsSize ∧ 256 ≤ { Config.unit with localsSize := 256 }.localsSize ∧
      Config.unit.stackDepth = { Config.unit with localsSize := 256 }.stackDepth := by decide

theorem witness_GotoAddsOffsetToOwnIndex :
    LegalTarget (unitAt 1 [0x00, 0xA7, 0xFF, 0xFF] []) 0xFFFF ∧
      LegalTarget (unitAt 1 [0x00, 0xA7, 0x00, 0x03] []) 0x0003 ∧
      ¬ LegalTarget (unitAt 1 [0x00, 0xA7, 0xFF, 0xFE] []) 0xFFFE ∧
      ¬ LegalTarget (unitAt 1 [0x00, 0xA7, 0x00, 0x04] []) 0x0004 := by
  unfold LegalTarget; decide

/-- Taken with a legal and with an illegal target, not taken, and an empty stack. -/
theorem witness_IfeqBranchesOnZero :
    (unit [0x99, 0, 3] [0]).stack = 0 :: [] ∧ (0 : Byte).toInt = 0 ∧
      LegalTarget (unit [0x99, 0, 3] [0]) 3 ∧ ¬ LegalTarget (unit [0x99, 0, 4] [0]) 4 ∧
      (unit [0x99, 0, 3] [1]).stack = 1 :: [] ∧ ¬ (1 : Byte).toInt = 0 ∧
      (unit [0x99, 0, 3] []).stack = [] := by
  unfold LegalTarget; decide

theorem witness_IfltBranchesOnNegative :
    (unit [0x9B, 0, 3] [0x80]).stack = 0x80 :: [] ∧ (0x80 : Byte).toInt < 0 ∧
      LegalTarget (unit [0x9B, 0, 3] [0x80]) 3 ∧ ¬ LegalTarget (unit [0x9B, 0, 4] [0x80]) 4 ∧
      (unit [0x9B, 0, 3] [0]).stack = 0 :: [] ∧ ¬ (0 : Byte).toInt < 0 ∧
      (unit [0x9B, 0, 3] []).stack = [] := by
  unfold LegalTarget; decide

theorem witness_IfIcmpeqBranchesOnEquality :
    (unit [0x9F, 0, 3] [5, 5]).stack = 5 :: 5 :: [] ∧
      LegalTarget (unit [0x9F, 0, 3] [5, 5]) 3 ∧ ¬ LegalTarget (unit [0x9F, 0, 4] [5, 5]) 4 ∧
      (unit [0x9F, 0, 3] [5, 6]).stack = 6 :: 5 :: [] ∧ (6 : Byte) ≠ 5 ∧
      (unit [0x9F, 0, 3] [5]).stack.length < 2 := by
  unfold LegalTarget; decide

theorem witness_GotoWithOffsetZeroLoopsForEver :
    (unit [0xA7, 0, 0] []).status = .running ∧
      (unit [0xA7, 0, 0] []).code.drop (unit [0xA7, 0, 0] []).pc = [0xA7, 0, 0] ∧
      (unit [0x99, 0, 0] [7, 0]).code.drop (unit [0x99, 0, 0] [7, 0]).pc = [0x99, 0, 0] ∧
      (unit [0x99, 0, 0] [7, 0]).stack = 0 :: [7] ∧
      (unit [0x9B, 0, 0] [0xFF]).code.drop (unit [0x9B, 0, 0] [0xFF]).pc = [0x9B, 0, 0] ∧
      (unit [0x9B, 0, 0] [0xFF]).stack = 0xFF :: [] ∧ (0xFF : Byte).toInt < 0 ∧
      (unit [0x9F, 0, 0] [3, 3]).code.drop (unit [0x9F, 0, 0] [3, 3]).pc = [0x9F, 0, 0] ∧
      (unit [0x9F, 0, 0] [3, 3]).stack = 3 :: 3 :: [] := by decide

theorem witness_InstructionsWriteNoReadOnlyStore :
    (∃ t, exec .nop (unit [0x00] []) = .next t) ∧ writesSlot .nop = none ∧
      (∃ t, exec (.istore 3) (unit [0x36, 3] [7]) = .next t) ∧
      writesSlot (.istore 3) = some 3 ∧ 4 ≠ (3 : Byte).toNat ∧
      (∃ t, step (unit [0x36, 3] [7]) = .next t) ∧
      decode ((unit [0x36, 3] [7]).code.drop (unit [0x36, 3] [7]).pc) = .ok (.istore 3, []) ∧
      (∃ t, step (unit [0x36] [7]) = .next t) ∧
      ∀ i rest, decode ((unit [0x36] [7]).code.drop (unit [0x36] [7]).pc) = .ok (i, rest) →
        writesSlot i = none :=
  ⟨⟨_, rfl⟩, rfl, ⟨_, rfl⟩, rfl, by decide, ⟨_, rfl⟩, rfl, ⟨_, rfl⟩, fun _ _ h => by cases h⟩

theorem witness_StackFrameOfEveryInstruction :
    ∃ t, exec .swap (unit [0x5F] [9, 1, 2]) = .next t ∧ t.status ≠ .fault := ⟨_, rfl, by decide⟩

theorem witness_StackDepthStaysWithinCapacity :
    smallStack.stackDepth = some 2 ∧ (unit [0x10, 3] [1]).stack.length ≤ 2 ∧
      ∃ t, stepOn smallStack (unit [0x10, 3] [1]) = .next t := ⟨rfl, by decide, _, rfl⟩

theorem witness_LoadSplitsImageAndResetsState :
    ([1, 0xFE] : List Byte).length = (2 : Byte).toNat ∧ ([] : List Byte).length ≤ 65535 ∧
      ([0x13, 0, 1] : List Byte).length ≤ 65535 := by decide

/-- On a unit with a `pc` of one bit: a stream of one byte is loaded, one of two is not. -/
theorem witness_LoadValidatesNothingElse :
    (2 : Byte).toNat ≤ ([9, 9] : List Byte).length ∧
      (∃ t, State.loadOn { Config.unit with pcWidth := 1 } [0x00, 0x00] = .next t) ∧
      State.loadOn { Config.unit with pcWidth := 1 } [0x00, 0x00, 0x00] =
        .refused .imageTooLong := ⟨by decide, ⟨_, rfl⟩, rfl⟩

theorem witness_PcWidthHoldsPcAndIsUnobservable :
    State.InvOn { Config.unit with pcWidth := 1 } (unit [0x00] []) ∧
      Config.unit.localsSize = { Config.unit with pcWidth := 1 }.localsSize ∧
      Config.unit.stackDepth = { Config.unit with pcWidth := 1 }.stackDepth ∧
      { Config.unit with pcWidth := 1 }.pcWidth ≤ Config.unit.pcWidth ∧
      ∃ t, State.loadOn { Config.unit with pcWidth := 1 } [0x00, 0x00] = .next t :=
  ⟨⟨by decide, by decide, by decide, ⟨by decide, rfl, rfl, rfl⟩, by decide, by decide⟩,
    rfl, rfl, by decide, _, rfl⟩

theorem witness_InvariantHoldsAfterLoad :
    ∃ t, State.loadOn Config.unit [0x00, 0x01] = .next t := ⟨_, rfl⟩

/-- A state of a unit with a full stack of two entries over four slots, that a step is made from. -/
theorem witness_StepKeepsInvariant_finite :
    State.InvOn { fewLocals with stackDepth := some 2 } (unitWith [0x36, 3] [7, 8] [] [(3, 9)]) ∧
      ∃ t, stepOn { fewLocals with stackDepth := some 2 }
        (unitWith [0x36, 3] [7, 8] [] [(3, 9)]) = .next t :=
  ⟨⟨by decide, by decide, by decide, ⟨by decide, rfl, rfl, rfl⟩, by decide, by decide⟩, _, rfl⟩

/-- A state with every part of the invariant, that a step is made from. -/
theorem witness_StepKeepsInvariant :
    (unitWith [0x36, 3] [7] [1] [(1, 1), (9, 9)]).Inv ∧
      ∃ t, step (unitWith [0x36, 3] [7] [1] [(1, 1), (9, 9)]) = .next t :=
  ⟨⟨by decide, by decide, by decide, ⟨by decide, rfl, rfl, rfl⟩, by decide, by decide⟩, _, rfl⟩

theorem witness_PcMovesByLengthOrOffset :
    (unitAt 1 [0x00, 0xA7, 0xFF, 0xFF] []).Inv ∧
      (∃ t, step (unitAt 1 [0x00, 0xA7, 0xFF, 0xFF] []) = .next t ∧ t.status ≠ .fault) ∧
      (unitAt 0 [0x57] []).Inv ∧ ∃ t, step (unitAt 0 [0x57] []) = .next t ∧ t.status = .fault :=
  ⟨⟨by decide, by decide, by decide, ⟨by decide, rfl, rfl, rfl⟩, by decide, by decide⟩,
    ⟨_, rfl, by decide⟩,
    ⟨by decide, by decide, by decide, ⟨by decide, rfl, rfl, rfl⟩, by decide, by decide⟩, _, rfl, rfl⟩

theorem witness_DoneExactlyAtEndOfStream :
    (∃ t, State.load [0x00] = .next t ∧ t.status = .done) ∧
      (∃ t, State.load [0x00, 0x00] = .next t ∧ t.status = .running) ∧
      (unit [0x00] []).Inv ∧ (∃ t, step (unit [0x00] []) = .next t ∧ t.status = .done) ∧
      Reaches (unit [0x00] []) (unit [0x00] []) :=
  ⟨⟨_, rfl, rfl⟩, ⟨_, rfl, rfl⟩,
    ⟨by decide, by decide, by decide, ⟨by decide, rfl, rfl, rfl⟩, by decide, by decide⟩,
    ⟨_, rfl, rfl⟩, .refl _⟩

theorem witness_ResultIsStackTopFirst :
    State.reset.status = .done ∧ (unit [0x00] []).status ≠ .done := by decide

end Sys2Proof.Tests
end

section
/-! PROOFS. The scope of the machine (00_scope.md R5, R10): it is total where a step is enabled, and
the unit of this hardware is the machine at one value of its parameters, of which no run shows
PC_WIDTH. -/

namespace Sys2Proof.Machine

/-! ### Every instruction answers a next state -/

/-- The result is a next state, not a stop of the model. -/
def Answers (r : Result) : Prop := ∃ t, r = .next t

theorem answers_next (s : State) : Answers (.next s) := ⟨s, rfl⟩

theorem answers_trap (s : State) (f : FaultCause) (info : Half) : Answers (trap s f info) :=
  answers_next _

theorem answers_needOne {s : State} {k : Byte → List Byte → Result}
    (hk : ∀ a below, Answers (k a below)) : Answers (needOne s k) := by
  unfold needOne
  split
  · exact hk _ _
  · exact answers_trap _ _ _

theorem answers_needTwo {s : State} {k : Byte → Byte → List Byte → Result}
    (hk : ∀ a b below, Answers (k a b below)) : Answers (needTwo s k) := by
  unfold needTwo
  split
  · exact hk _ _ _
  · exact answers_trap _ _ _
  · exact answers_trap _ _ _

theorem answers_room {c : Config} {s : State} {k : Result} (hk : Answers k) :
    Answers (room c s k) := by
  unfold room
  split
  · exact hk
  · exact answers_trap _ _ _

theorem answers_slot {c : Config} {index8 : Byte} {s : State} {k : Result} (hk : Answers k) :
    Answers (slot c index8 s k) := by
  unfold slot
  split
  · exact hk
  · exact answers_trap _ _ _

theorem answers_branchTo (s : State) (offset16 : Half) (stack : List Byte) :
    Answers (branchTo s offset16 stack) := by
  unfold branchTo
  split
  · exact answers_next _
  · exact answers_trap _ _ _

theorem answers_branchIf (taken : Bool) (s : State) (offset16 : Half) (below : List Byte) :
    Answers (branchIf taken s offset16 below) := by
  unfold branchIf
  split
  · exact answers_branchTo _ _ _
  · exact answers_next _

theorem answers_runLdcW (c : Config) (index16 : Half) (s : State) :
    Answers (runLdcW c index16 s) := by
  unfold runLdcW
  split
  · exact answers_trap _ _ _
  · exact answers_room (answers_next _)

/-- Each meaning is its checks, each of which answers when what follows it does, and then a write or
a branch. -/
theorem answers_execOn (c : Config) (i : Instr) (s : State) : Answers (execOn c i s) := by
  cases i with
  | nop => exact answers_next _
  | bipush => exact answers_room (answers_next _)
  | ldcW => exact answers_runLdcW _ _ _
  | iload => exact answers_slot (answers_room (answers_next _))
  | istore => exact answers_needOne fun _ _ => answers_slot (answers_next _)
  | pop => exact answers_needOne fun _ _ => answers_next _
  | dup => exact answers_needOne fun _ _ => answers_room (answers_next _)
  | swap | iadd | isub | iand | ior => exact answers_needTwo fun _ _ _ => answers_next _
  | iinc => exact answers_slot (answers_next _)
  | ifeq | iflt => exact answers_needOne fun _ _ => answers_branchIf _ _ _ _
  | ifIcmpeq => exact answers_needTwo fun _ _ _ => answers_branchIf _ _ _ _
  | goto => exact answers_branchTo _ _ _
  | ireturn | invokevirtual | unlisted => exact answers_trap _ _ _

theorem answers_finishStep {r : Result} (hr : Answers r) : Answers (finishStep r) := by
  obtain ⟨t, rfl⟩ := hr
  exact answers_next _

/-! ### The step -/

/-- The opcode fetch is defined at every `pc` inside CODE (R31): only operand bytes can be
missing. -/
theorem fetch_error_of_pc_lt {s : State} {e : DecodeError} (hpc : s.pc < s.code.length)
    (h : s.fetch = .error e) : ∃ n, e = .missingOperands n := by
  rw [State.fetch_eq] at h
  rcases decode_error h with
    ⟨hnil, -⟩ | ⟨_, ⟨_, -, -, rfl⟩ | ⟨_, -, -, rfl⟩ | ⟨_, _, -, -, rfl⟩⟩
  · exact absurd (List.drop_eq_nil_iff.mp hnil) (Nat.not_le.mpr hpc)
  all_goals exact ⟨_, rfl⟩

/-- A RUNNING unit whose `pc` designates a byte of CODE has a successor (R10, R116). -/
theorem answers_stepOn (c : Config) {s : State} (hr : s.status = .running)
    (hpc : s.pc < s.code.length) : Answers (stepOn c s) := by
  simp only [stepOn, hr]
  split
  · next e he =>
    obtain ⟨n, rfl⟩ := fetch_error_of_pc_lt hpc he
    exact answers_trap _ _ _
  · exact answers_finishStep (answers_execOn _ _ _)

/-! ### PC_WIDTH -/

theorem State.StatusAgrees.pc_le {s : State} (h : s.StatusAgrees) : s.pc ≤ s.code.length := by
  unfold State.StatusAgrees at h
  split at h <;> omega

/-- FPC is 0, or the index of the opcode that faulted (R24). -/
theorem State.StatusAgrees.fpc_le {s : State} (h : s.StatusAgrees) : s.fpc ≤ s.pc := by
  unfold State.StatusAgrees at h
  split at h <;> omega

theorem State.InvOn.pc_lt {c : Config} {s : State} (h : s.InvOn c) : s.pc < 2 ^ c.pcWidth :=
  (Config.le_maxCodeLen c _).mp (h.status_agrees.pc_le.trans h.code_short)

theorem State.InvOn.fpc_lt {c : Config} {s : State} (h : s.InvOn c) : s.fpc < 2 ^ c.pcWidth :=
  h.status_agrees.fpc_le.trans_lt h.pc_lt

theorem State.InvOn.toNat_pcBits {c : Config} {s : State} (h : s.InvOn c) :
    (s.pcBits c).toNat = s.pc :=
  (BitVec.toNat_ofNat ..).trans (Nat.mod_eq_of_lt h.pc_lt)

theorem State.InvOn.toNat_fpcBits {c : Config} {s : State} (h : s.InvOn c) :
    (s.fpcBits c).toNat = s.fpc :=
  (BitVec.toNat_ofNat ..).trans (Nat.mod_eq_of_lt h.fpc_lt)

/-- No meaning reads the width: the checks look at the two other parameters only. -/
theorem execOn_pcWidth (c : Config) (width : Nat) (i : Instr) (s : State) :
    execOn { c with pcWidth := width } i s = execOn c i s := by
  cases i <;> rfl

theorem stepOn_pcWidth (c : Config) (width : Nat) (s : State) :
    stepOn { c with pcWidth := width } s = stepOn c s := by
  simp only [stepOn, execOn_pcWidth]

theorem Config.eq_setPcWidth {c d : Config} (hl : c.localsSize = d.localsSize)
    (hd : c.stackDepth = d.stackDepth) : c = { d with pcWidth := c.pcWidth } := by
  cases c; cases d; simp_all

theorem Config.maxCodeLen_mono {c d : Config} (h : c.pcWidth ≤ d.pcWidth) :
    c.maxCodeLen ≤ d.maxCodeLen :=
  Nat.sub_le_sub_right (Nat.pow_le_pow_right (by decide) h) 1

/-- An image that a unit of smaller width accepts is loaded alike by one of larger width. -/
theorem State.loadOn_mono {c d : Config} {image : List Byte} {t : State}
    (hw : c.pcWidth ≤ d.pcWidth) (h : State.loadOn c image = .next t) :
    State.loadOn d image = .next t := by
  obtain ⟨n, rest, rfl, hn, hlen, rfl⟩ := State.loadOn_next h
  exact State.loadOn_ok hn (hlen.trans (Config.maxCodeLen_mono hw))

end Sys2Proof.Machine

namespace Sys2Proof.Proofs

open Sys2Proof.Machine

/-- Settles O10: every check and every meaning answers, and a step that answers was taken from
RUNNING. -/
theorem everyRunningStateHasASuccessor : Obligations.EveryRunningStateHasASuccessor := by
  intro s
  refine ⟨fun hr hpc => ?_, fun hr t h => hr (step_next h).1⟩
  rw [← stepOn_unit]
  exact answers_stepOn Config.unit hr hpc

/-- Settles O49: the invariant bounds `pc` and FPC by CODE_LEN, which the load keeps below
`2^PC_WIDTH`; and only the load's limit reads the width. -/
theorem pcWidthHoldsPcAndIsUnobservable : Obligations.PcWidthHoldsPcAndIsUnobservable := by
  refine ⟨fun c s h => ⟨h.toNat_pcBits, h.toNat_fpcBits⟩, fun c d s hl hd => ?_,
    fun c d image t hw h => State.loadOn_mono hw h⟩
  rw [Config.eq_setPcWidth hl hd]
  exact stepOn_pcWidth d c.pcWidth s

/-- Settles O48: the parametric step and meanings at R5's values are the unit's, and its load is
defined as theirs. -/
theorem parametricMachineAtUnitIsTheUnit : Obligations.ParametricMachineAtUnitIsTheUnit :=
  ⟨stepOn_unit, execOn_unit, fun _ => rfl⟩

end Sys2Proof.Proofs
end

section
/-! PROOFS. The architectural state (10_state.md): what each step leaves of the nine items, the
invariant of a loaded unit, which the load establishes and every step keeps, and that the parameters
show only at their bounds. -/

namespace Sys2Proof.Machine

open Sys2Proof.Claims

/-! ### The effect of an instruction on `pc`, the local variables and the stack -/

/-- A branch moves `pc` by its three bytes or to a target inside 0..CODE_LEN (R82, R84). -/
theorem Effect.Branched.pc_eq {taken : Bool} {s t : State} {offset16 : Half} {below : List Byte}
    (h : Effect.Branched taken s offset16 below t) :
    t.pc = s.pc + 3 ∨ (t.pc : Int) = (s.pc : Int) + offset16.toInt ∧ t.pc ≤ s.code.length := by
  obtain ⟨_, rfl⟩ | ⟨_, h₀, h₁, rfl⟩ := h
  · exact .inl rfl
  · simp only [State.setPc_pc, State.codeLen] at h₁ ⊢
    omega

theorem Effect.Branched.stack_eq {taken : Bool} {s t : State} {offset16 : Half}
    {below : List Byte} (h : Effect.Branched taken s offset16 below t) : t.stack = below := by
  obtain ⟨_, rfl⟩ | ⟨_, _, _, rfl⟩ := h <;> rfl

theorem Effect.Branched.lv_eq {taken : Bool} {s t : State} {offset16 : Half}
    {below : List Byte} (h : Effect.Branched taken s offset16 below t) : t.lv = s.lv := by
  obtain ⟨_, rfl⟩ | ⟨_, _, _, rfl⟩ := h <;> rfl

/-- `pc` moves by the encoded length or, for a branch, to a legal target (R15). -/
theorem Effect.pc_eq {c : Config} {i : Instr} {s t : State} (h : Effect c i s t) :
    t.pc = s.pc + (encode i).length ∨
      ∃ o, branchOf i = some o ∧ (t.pc : Int) = (s.pc : Int) + o.toInt ∧
        t.pc ≤ s.code.length := by
  cases i <;> simp only [Effect] at h
  case nop => subst h; exact .inl rfl
  case bipush | iinc => obtain ⟨_, rfl⟩ := h; exact .inl rfl
  case iload => obtain ⟨_, _, rfl⟩ := h; exact .inl rfl
  case ldcW | pop => obtain ⟨_, _, _, rfl⟩ := h; exact .inl rfl
  case istore | dup | swap | iadd | isub | iand | ior =>
    obtain ⟨_, _, _, _, rfl⟩ := h; exact .inl rfl
  case goto => exact h.pc_eq.imp id fun hb => ⟨_, rfl, hb⟩
  case ifeq | iflt => obtain ⟨_, _, _, h⟩ := h; exact h.pc_eq.imp id fun hb => ⟨_, rfl, hb⟩
  case ifIcmpeq => obtain ⟨_, _, _, _, h⟩ := h; exact h.pc_eq.imp id fun hb => ⟨_, rfl, hb⟩

/-- The local variables are as before, or ISTORE or IINC wrote its slot, which exists (R36). -/
theorem Effect.lv_eq {c : Config} {i : Instr} {s t : State} (h : Effect c i s t) :
    t.lv = s.lv ∨ ∃ x v, writesSlot i = some x ∧ x.toNat < c.localsSize ∧
      t.lv = Memory.write s.lv x.toNat v := by
  cases i <;> simp only [Effect] at h
  case nop => subst h; exact .inl rfl
  case bipush => obtain ⟨_, rfl⟩ := h; exact .inl rfl
  case iload => obtain ⟨_, _, rfl⟩ := h; exact .inl rfl
  case ldcW | pop => obtain ⟨_, _, _, rfl⟩ := h; exact .inl rfl
  case dup | swap | iadd | isub | iand | ior => obtain ⟨_, _, _, _, rfl⟩ := h; exact .inl rfl
  case istore => obtain ⟨_, _, _, hx, rfl⟩ := h; exact .inr ⟨_, _, rfl, hx, rfl⟩
  case iinc => obtain ⟨hx, rfl⟩ := h; exact .inr ⟨_, _, rfl, hx, rfl⟩
  case goto => exact .inl h.lv_eq
  case ifeq | iflt => obtain ⟨_, _, _, h⟩ := h; exact .inl h.lv_eq
  case ifIcmpeq => obtain ⟨_, _, _, _, h⟩ := h; exact .inl h.lv_eq

/-- The entries popped are replaced by the entries pushed, over the same entries below. -/
theorem Effect.stack_eq {c : Config} {i : Instr} {s t : State} (h : Effect c i s t) :
    ∃ popped pushed below, popped.length = pops i ∧ pushed.length = pushes i ∧
      s.stack = popped ++ below ∧ t.stack = pushed ++ below := by
  cases i <;> simp only [Effect] at h
  case nop => subst h; exact ⟨[], [], _, rfl, rfl, rfl, rfl⟩
  case bipush => obtain ⟨_, rfl⟩ := h; exact ⟨[], [_], _, rfl, rfl, rfl, rfl⟩
  case iload => obtain ⟨_, _, rfl⟩ := h; exact ⟨[], [_], _, rfl, rfl, rfl, rfl⟩
  case ldcW => obtain ⟨_, _, _, rfl⟩ := h; exact ⟨[], [_], _, rfl, rfl, rfl, rfl⟩
  case iinc => obtain ⟨_, rfl⟩ := h; exact ⟨[], [], _, rfl, rfl, rfl, rfl⟩
  case istore => obtain ⟨_, _, hs, _, rfl⟩ := h; exact ⟨[_], [], _, rfl, rfl, hs, rfl⟩
  case pop => obtain ⟨_, _, hs, rfl⟩ := h; exact ⟨[_], [], _, rfl, rfl, hs, rfl⟩
  case dup => obtain ⟨_, _, hs, _, rfl⟩ := h; exact ⟨[_], [_, _], _, rfl, rfl, hs, rfl⟩
  case swap => obtain ⟨_, _, _, hs, rfl⟩ := h; exact ⟨[_, _], [_, _], _, rfl, rfl, hs, rfl⟩
  case iadd | isub | iand | ior =>
    obtain ⟨_, _, _, hs, rfl⟩ := h; exact ⟨[_, _], [_], _, rfl, rfl, hs, rfl⟩
  case goto => exact ⟨[], [], _, rfl, rfl, rfl, h.stack_eq⟩
  case ifeq | iflt => obtain ⟨_, _, hs, h⟩ := h; exact ⟨[_], [], _, rfl, rfl, hs, h.stack_eq⟩
  case ifIcmpeq =>
    obtain ⟨_, _, _, hs, h⟩ := h; exact ⟨[_, _], [], _, rfl, rfl, hs, h.stack_eq⟩

/-- An instruction that grows the stack has found room for one entry, and none grows it by more
(R98). -/
theorem Effect.grows_within {c : Config} {i : Instr} {s t : State} (h : Effect c i s t) :
    pushes i ≤ pops i ∨ pushes i = pops i + 1 ∧ fits c s.sp 1 = true := by
  cases i <;> simp only [Effect] at h
  case bipush => exact .inr ⟨rfl, h.1⟩
  case iload => obtain ⟨_, hf, _⟩ := h; exact .inr ⟨rfl, hf⟩
  case ldcW => obtain ⟨_, _, hf, _⟩ := h; exact .inr ⟨rfl, hf⟩
  case dup => obtain ⟨_, _, _, hf, _⟩ := h; exact .inr ⟨rfl, hf⟩
  all_goals exact .inl (by simp [pushes, pops])

/-- What `fits` asks of a finite stack (R19). -/
theorem fits_iff (c : Config) (sp n : Nat) :
    fits c sp n = true ↔ ∀ depth, c.stackDepth = some depth → sp + n ≤ depth := by
  unfold fits
  split <;> simp_all

theorem Effect.sp_eq {c : Config} {i : Instr} {s t : State} (h : Effect c i s t) :
    t.sp + pops i = s.sp + pushes i := by
  obtain ⟨popped, pushed, below, hpop, hpush, hs, ht⟩ := h.stack_eq
  simp only [State.sp, hs, ht, List.length_append]
  omega

/-- No effect leaves more entries than the stack can hold (R19). -/
theorem Effect.depth_fits {c : Config} {i : Instr} {s t : State} (h : Effect c i s t)
    (hs : fits c s.sp 0 = true) : fits c t.sp 0 = true := by
  rw [fits_iff] at hs ⊢
  intro depth hd
  have hlen := h.sp_eq
  have hle := hs depth hd
  rcases h.grows_within with hg | ⟨hg, hf⟩
  · omega
  · have := (fits_iff c s.sp 1).mp hf depth hd
    omega

/-! ### What a step can do -/

/-- What decodes is the encoding of the instruction read (R45 to R50). -/
theorem decode_ok_encode {bytes rest : List Byte} {i : Instr}
    (h : decode bytes = .ok (i, rest)) : bytes = encode i ++ rest := by
  obtain ⟨_, ⟨rfl, hf⟩ | ⟨make, b1, rfl, hf, rfl⟩ | ⟨make, b1, b2, rfl, hf, rfl⟩⟩ := decode_ok h
  · rw [(formatOf_f1 hf).1]; rfl
  · rw [(formatOf_f2 hf b1).1]; rfl
  · rw [(formatOf_f3 hf b1 b2).1]; rfl

theorem encode_length_pos (i : Instr) : 0 < (encode i).length := by
  cases i <;> exact Nat.succ_pos _

/-- The instruction fetched lies wholly in CODE (R51). -/
theorem fetch_ok_within {s : State} {i : Instr} {rest : List Byte} (h : s.fetch = .ok (i, rest)) :
    s.pc + (encode i).length ≤ s.code.length := by
  have hlen := congrArg List.length (decode_ok_encode h)
  have := encode_length_pos i
  simp only [Store.bytesFrom, List.length_drop, List.length_append] at hlen
  omega

/-- A step of a RUNNING unit raises a fault from the state as it was, or has the effect of the
instruction fetched, followed by the test for the end of the run (R100, R116). -/
theorem stepOn_raises_or_runs {c : Config} {s t : State} (h : stepOn c s = .next t) :
    s.status = .running ∧ ((∃ f info, t = s.raise f info) ∨
      ∃ i rest u, s.fetch = .ok (i, rest) ∧ Effect c i s u ∧ t = u.finish) := by
  obtain ⟨hr, ⟨n, -, rfl⟩ | ⟨i, rest, u, hf, hx, rfl⟩⟩ := stepOn_next h
  · exact ⟨hr, .inl ⟨_, _, rfl⟩⟩
  · rcases execOn_next hx with he | ⟨f, info, -, -, rfl⟩
    · exact ⟨hr, .inr ⟨i, rest, u, hf, he, rfl⟩⟩
    · exact ⟨hr, .inl ⟨f, info, State.finish_raise s f info⟩⟩

theorem step_raises_or_runs {s t : State} (h : step s = .next t) :
    s.status = .running ∧ ((∃ f info, t = s.raise f info) ∨
      ∃ i rest u, s.fetch = .ok (i, rest) ∧ Effect Config.unit i s u ∧ t = u.finish) :=
  stepOn_raises_or_runs ((stepOn_unit s).trans h)

/-- The effect of an instruction is no fault, whatever the end-of-run test then finds. -/
theorem Effect.finish_not_fault {c : Config} {i : Instr} {s u : State} (h : Effect c i s u)
    (hr : s.status = .running) : u.finish.status ≠ .fault := by
  obtain ⟨-, -, hst, -⟩ := h.same_else
  rw [State.finish_status, hst, hr]
  split <;> simp

/-- An effect moves `pc` to an index in 0..CODE_LEN (R15). -/
theorem Effect.pc_le {c : Config} {i : Instr} {s t : State} {rest : List Byte}
    (h : Effect c i s t) (hf : s.fetch = .ok (i, rest)) : t.pc ≤ s.code.length := by
  rcases h.pc_eq with hpc | ⟨_, -, -, hle⟩
  · exact hpc ▸ fetch_ok_within hf
  · exact hle

/-! ### The invariant -/

theorem FaultCause.word_legal (f : FaultCause) : f.word ∈ legalCauses := by
  cases f <;> decide

theorem State.statusAgrees_running {s : State} (h : s.status = .running) :
    s.StatusAgrees ↔ s.pc < s.code.length ∧ s.cause = 0 ∧ s.fpc = 0 ∧ s.finfo = 0 := by
  simp [State.StatusAgrees, h]

theorem State.statusAgrees_done {s : State} (h : s.status = .done) :
    s.StatusAgrees ↔ s.pc = s.code.length ∧ s.cause = 0 ∧ s.fpc = 0 ∧ s.finfo = 0 := by
  simp [State.StatusAgrees, h]

theorem State.statusAgrees_fault {s : State} (h : s.status = .fault) :
    s.StatusAgrees ↔ s.pc < s.code.length ∧ s.cause ∈ legalCauses ∧ s.fpc = s.pc := by
  simp [State.StatusAgrees, h]

/-- A fault taken at an opcode of CODE keeps the invariant: it writes no store, and records a legal
cause and the index of that opcode (R24, R100). -/
theorem State.InvOn.raise {c : Config} {s : State} (h : s.InvOn c) (hpc : s.pc < s.code.length)
    (f : FaultCause) (info : Half) : (s.raise f info).InvOn c where
  pool_short := h.pool_short
  code_short := h.code_short
  depth_fits := h.depth_fits
  status_agrees := (State.statusAgrees_fault rfl).mpr ⟨hpc, f.word_legal, rfl⟩
  locals_canonical := h.locals_canonical
  locals_exist := h.locals_exist

/-- The end-of-run test makes STATUS agree with a `pc` in 0..CODE_LEN (R116, R117). -/
theorem State.finish_statusAgrees {s : State} (hr : s.status = .running)
    (hpc : s.pc ≤ s.code.length) (hz : s.cause = 0 ∧ s.fpc = 0 ∧ s.finfo = 0) :
    s.finish.StatusAgrees := by
  by_cases hend : s.pc = s.code.length
  · rw [State.statusAgrees_done (by simp [State.finish_status, hr, hend])]
    simpa [hend] using hz
  · rw [State.statusAgrees_running (by simp [State.finish_status, hr, hend])]
    simpa using ⟨Nat.lt_of_le_of_ne hpc hend, hz⟩

/-- An effect keeps the local variables canonical, with only existing slots listed (R17). -/
theorem Effect.locals_ok {c : Config} {i : Instr} {s t : State} (h : Effect c i s t)
    (hs : s.InvOn c) :
    Memory.wf t.lv = true ∧ ∀ cell ∈ t.lv, cell.1 < 256 ∧ cell.1 < c.localsSize := by
  rcases h.lv_eq with hlv | ⟨x, v, -, hx, hlv⟩
  · rw [hlv]
    exact ⟨hs.locals_canonical, hs.locals_exist⟩
  · rw [hlv]
    refine ⟨Memory.wf_write _ _ _ hs.locals_canonical, fun cell hc => ?_⟩
    rcases Memory.mem_write _ _ _ _ hc with ⟨rfl, -⟩ | hc
    · exact ⟨x.isLt, hx⟩
    · exact hs.locals_exist cell hc

/-- An instruction that raises nothing, run from a RUNNING unit that fetched it, keeps the invariant
once the end of the run is tested. -/
theorem State.InvOn.effect_finish {c : Config} {i : Instr} {s u : State} {rest : List Byte}
    (hs : s.InvOn c) (hr : s.status = .running) (hf : s.fetch = .ok (i, rest))
    (h : Effect c i s u) : u.finish.InvOn c := by
  obtain ⟨hcp, hcode, hst, hcause, hfpc, hfinfo⟩ := h.same_else
  obtain ⟨-, hz⟩ := (State.statusAgrees_running hr).mp hs.status_agrees
  obtain ⟨hwf, hexist⟩ := h.locals_ok hs
  exact {
    pool_short := by rw [State.finish_cp, hcp]; exact hs.pool_short
    code_short := by rw [State.finish_code, hcode]; exact hs.code_short
    depth_fits := by rw [State.sp, State.finish_stack]; exact h.depth_fits hs.depth_fits
    status_agrees := State.finish_statusAgrees (hst.trans hr) (hcode ▸ h.pc_le hf)
      (by rw [hcause, hfpc, hfinfo]; exact hz)
    locals_canonical := by rw [State.finish_lv]; exact hwf
    locals_exist := by rw [State.finish_lv]; exact hexist }

/-- Every step keeps the invariant, whatever the parameters. -/
theorem State.InvOn.stepOn {c : Config} {s t : State} (hs : s.InvOn c)
    (h : stepOn c s = .next t) : t.InvOn c := by
  obtain ⟨hr, ⟨f, info, rfl⟩ | ⟨i, rest, u, hf, he, rfl⟩⟩ := stepOn_raises_or_runs h
  · exact hs.raise ((State.statusAgrees_running hr).mp hs.status_agrees).1 f info
  · exact hs.effect_finish hr hf he

theorem State.Inv.step {s t : State} (hs : s.Inv) (h : step s = .next t) : t.Inv :=
  State.InvOn.stepOn hs ((stepOn_unit s).trans h)

/-- STATUS after a load is DONE for an empty instruction stream and RUNNING for any other, with the
fault registers 0 (R28, R117). -/
theorem State.loaded_statusAgrees (cp code : List Byte) : (State.loaded cp code).StatusAgrees := by
  by_cases hc : code.length = 0
  · exact (State.statusAgrees_done (if_pos hc)).mpr ⟨hc.symm, rfl, rfl, rfl⟩
  · exact (State.statusAgrees_running (if_neg hc)).mpr ⟨Nat.pos_of_ne_zero hc, rfl, rfl, rfl⟩

/-- The load of an image that is not refused establishes the invariant. -/
theorem State.InvOn.of_loadOn {c : Config} {image : List Byte} {t : State}
    (h : State.loadOn c image = .next t) : t.InvOn c := by
  obtain ⟨n, rest, -, -, hcode, rfl⟩ := State.loadOn_next h
  exact {
    pool_short := (List.length_take_le _ _).trans (Nat.le_of_lt_succ n.isLt)
    code_short := hcode
    depth_fits := (fits_iff c 0 0).mpr fun depth _ => Nat.zero_le depth
    status_agrees := State.loaded_statusAgrees _ _
    locals_canonical := Memory.wf_reset
    locals_exist := fun _ hc => absurd hc List.not_mem_nil }

/-! ### The parameters -/

theorem room_congr {c d : Config} {s : State} (h : fits c s.sp 1 = fits d s.sp 1) (k : Result) :
    room c s k = room d s k := by
  simp only [room, h]

theorem slot_congr {c d : Config} {index8 : Byte}
    (h : index8.toNat < c.localsSize ↔ index8.toNat < d.localsSize) (s : State) (k : Result) :
    slot c index8 s k = slot d index8 s k :=
  if_congr h rfl rfl

/-- Two units that agree on whether the added entry fits and on whether the named slot exists give
an instruction the same meaning: no other check looks at the parameters. -/
theorem execOn_congr {c d : Config} {i : Instr} {s : State}
    (hroom : pushes i = pops i + 1 → fits c s.sp 1 = fits d s.sp 1)
    (hslot : ∀ x, slotOf i = some x → (x.toNat < c.localsSize ↔ x.toNat < d.localsSize)) :
    execOn c i s = execOn d i s := by
  cases i with
  | bipush imm8 => exact room_congr (hroom rfl) _
  | ldcW index16 => simp only [execOn, runLdcW, room_congr (hroom rfl)]
  | iload index8 =>
    simp only [execOn, runIload, slot_congr (hslot index8 rfl), room_congr (hroom rfl)]
  | istore index8 => simp only [execOn, runIstore, slot_congr (hslot index8 rfl)]
  | dup => simp only [execOn, runDup, room_congr (hroom rfl)]
  | iinc index8 imm8 => exact slot_congr (hslot index8 rfl) _ _
  | nop | pop | swap | iadd | isub | iand | ior | ifeq | iflt | ifIcmpeq | goto | ireturn
  | invokevirtual | unlisted => rfl

/-- A step shows the parameters only through the instruction it fetches. -/
theorem stepOn_congr {c d : Config} {s : State}
    (h : ∀ i rest, s.fetch = .ok (i, rest) → execOn c i s = execOn d i s) :
    stepOn c s = stepOn d s := by
  unfold stepOn
  cases s.status with
  | done | fault => rfl
  | running =>
    cases hf : s.fetch with
    | error e => rfl
    | ok found => exact congrArg finishStep (h found.1 found.2 hf)

/-- Within its parameters a unit gives an instruction the meaning of this hardware. -/
theorem execOn_within {c : Config} {i : Instr} {s : State} (h : WithinParameters c i s) :
    execOn c i s = execOn Config.unit i s := by
  obtain ⟨hroom, hslot⟩ := h
  refine execOn_congr (fun hg => ?_) fun x hx => ?_
  · rw [(fits_iff c s.sp 1).mpr (hroom hg), fits_unbounded rfl]
  · exact iff_of_true (hslot x hx) (x.isLt.trans (by decide))

/-! ### Slots that nothing writes -/

/-- A step that decodes no write of slot `i` leaves it as it was. -/
theorem step_read_spared {s t : State} {i : Byte} (h : step s = .next t)
    (hspare : ∀ j rest, s.fetch = .ok (j, rest) → writesSlot j ≠ some i) :
    Memory.read t.lv i.toNat = Memory.read s.lv i.toNat := by
  obtain ⟨-, ⟨f, info, rfl⟩ | ⟨j, rest, u, hf, he, rfl⟩⟩ := step_raises_or_runs h
  · rfl
  · rw [State.finish_lv]
    rcases he.lv_eq with hlv | ⟨x, v, hx, -, hlv⟩
    · rw [hlv]
    · have hne : i.toNat ≠ x.toNat := fun heq =>
        hspare j rest hf (BitVec.eq_of_toNat_eq heq ▸ hx)
      rw [hlv, Memory.read_write, if_neg hne]

theorem RunsWithoutWriting.read_eq {s u : State} {i : Byte} (h : RunsWithoutWriting i s u) :
    Memory.read u.lv i.toNat = Memory.read s.lv i.toNat := by
  induction h with
  | refl => rfl
  | tail _ now spares ih => exact (step_read_spared now spares).trans ih

theorem State.load_lv {image : List Byte} {s : State} (h : State.load image = .next s) :
    s.lv = [] := by
  obtain ⟨n, rest, -, -, -, rfl⟩ := State.loadOn_next h
  rfl

theorem exec_iload (index8 : Byte) (s : State) : exec (.iload index8) s =
    .next ((s.setStack (s.readLocal index8 :: s.stack)).advance 2) := by
  simp only [exec, execIload, runIload, slot_unit, room_unit]

theorem exec_iinc (index8 imm8 : Byte) (s : State) : exec (.iinc index8 imm8) s =
    .next ((s.writeLocal index8 (add8 (s.readLocal index8) imm8)).advance 3) := by
  simp only [exec, execIinc, runIinc, slot_unit]

/-- A step whose fetched instruction is known to answer `u` ends in `u`, the end of the run
tested. -/
theorem step_eq_finish {s t u : State} {i : Instr} {rest : List Byte} (h : step s = .next t)
    (hf : s.fetch = .ok (i, rest)) (he : exec i s = .next u) : t = u.finish := by
  obtain ⟨hr, -⟩ := step_next h
  simp only [step, hr, hf, he] at h
  exact next_eq h

theorem add8_zero_left (y : Byte) : add8 0#8 y = y := by
  simp [add8, u8]

end Sys2Proof.Machine

namespace Sys2Proof.Proofs

open Sys2Proof.Machine

/-- Settles O57: a step raises a fault, or has the effect of the instruction fetched and tests the
end of the run; each keeps the invariant, for any parameters. -/
theorem stepKeepsInvariant : Obligations.StepKeepsInvariant :=
  ⟨fun _ _ hs h => State.Inv.step hs h, fun _ _ _ hs h => hs.stepOn h⟩

/-- Settles O56: the pool has at most 255 bytes, the load bounds the stream, and every other item has
its reset value. -/
theorem invariantHoldsAfterLoad : Obligations.InvariantHoldsAfterLoad :=
  fun _ _ _ h => State.InvOn.of_loadOn h

/-- Settles O13: only a fault entry writes the fault registers. -/
theorem faultRegistersChangeOnlyByAFault : Obligations.FaultRegistersChangeOnlyByAFault := by
  intro s t h hnf
  obtain ⟨-, ⟨f, info, rfl⟩ | ⟨i, rest, u, -, he, rfl⟩⟩ := step_raises_or_runs h
  · exact absurd rfl hnf
  · obtain ⟨-, -, -, hcause, hfpc, hfinfo⟩ := he.same_else
    exact ⟨by rw [State.finish_cause, hcause], by rw [State.finish_fpc, hfpc],
      by rw [State.finish_finfo, hfinfo]⟩

/-- Settles O17: within its bounds no check of a parameter fails, on this unit or on the other. -/
theorem parametersMatterOnlyAtTheirBounds : Obligations.ParametersMatterOnlyAtTheirBounds := by
  refine ⟨fun c i s h => (execOn_within h).trans (execOn_unit i s), fun c s h => ?_⟩
  rw [← stepOn_unit]
  exact stepOn_congr fun i rest hf => execOn_within (h i rest hf)

/-- Settles O38: an index byte names a slot below 256, which both register files have. -/
theorem largeRegisterFilesAreIndistinguishable :
    Obligations.LargeRegisterFilesAreIndistinguishable := by
  intro c d hc hd hdepth s
  refine stepOn_congr fun i rest _ => execOn_congr (fun _ => ?_) fun x _ => ?_
  · simp only [fits, hdepth]
  · exact iff_of_true (x.isLt.trans_le hc) (x.isLt.trans_le hd)

/-- Settles O37: the load leaves every slot zero, and no step of the run writes this one. -/
theorem unwrittenSlotReadsZero : Obligations.UnwrittenSlotReadsZero := by
  intro image s u i hload hrun
  have hzero : Memory.read u.lv i.toNat = 0#8 := by
    rw [RunsWithoutWriting.read_eq hrun, State.load_lv hload, Memory.read_nil]
  refine ⟨hzero, fun v rest hf h => ?_, fun v n rest hf h => ?_⟩
  · rw [step_eq_finish h hf (exec_iload i u)]
    simp [State.readLocal, localIndex, hzero]
  · rw [step_eq_finish h hf (exec_iinc i n u)]
    simp [State.readLocal, localIndex, hzero, Memory.read_write, add8_zero_left]

/-- Settles O45: the effect of each instruction replaces what it pops by what it pushes. -/
theorem stackFrameOfEveryInstruction : Obligations.StackFrameOfEveryInstruction := by
  intro s t i h hnf
  rcases exec_next h with he | ⟨f, info, -, -, rfl⟩
  · obtain ⟨popped, pushed, below, hpop, hpush, hs, ht⟩ := he.stack_eq
    obtain ⟨-, -, hrest⟩ := he.same_else
    refine ⟨?_, ?_, he.sp_eq, hrest⟩
    · rw [hs, ← hpop, List.length_append]
      exact Nat.le_add_right _ _
    · rw [hs, ht, ← hpop, ← hpush, List.drop_left, List.drop_left]
  · exact absurd rfl hnf

/-- Settles O46: the bound is the invariant's, and a fault entry writes no `pc`. -/
theorem pcMovesByLengthOrOffset : Obligations.PcMovesByLengthOrOffset := by
  intro s t hs h
  refine ⟨(State.Inv.step hs h).status_agrees.pc_le, ?_⟩
  obtain ⟨hr, ⟨f, info, rfl⟩ | ⟨i, rest, u, hf, he, rfl⟩⟩ := step_raises_or_runs h
  · exact ⟨fun _ => rfl, fun hnf => absurd rfl hnf⟩
  · refine ⟨fun hfault => absurd hfault (he.finish_not_fault hr), fun _ => ⟨i, rest, hf, ?_⟩⟩
    rw [State.finish_pc]
    exact he.pc_eq.imp id fun ⟨o, ho, hpc, _⟩ => ⟨o, ho, hpc⟩

/-- Settles O47: an instruction that grows the stack checks the room for its entry first. -/
theorem stackDepthStaysWithinCapacity : Obligations.StackDepthStaysWithinCapacity := by
  intro c depth s t hd hs h
  obtain ⟨-, ⟨f, info, rfl⟩ | ⟨i, rest, u, -, he, rfl⟩⟩ := stepOn_raises_or_runs h
  · exact hs
  · have hfits : fits c s.sp 0 = true := (fits_iff c s.sp 0).mpr fun d h => by
      obtain rfl : depth = d := Option.some.inj (hd.symm.trans h)
      exact hs
    rw [State.finish_stack]
    exact (fits_iff c u.sp 0).mp (he.depth_fits hfits) depth hd

/-- Settles O50: taking and dropping the count in byte 0 splits what follows it where the pool
ends. -/
theorem loadSplitsImageAndResetsState : Obligations.LoadSplitsImageAndResetsState := by
  intro n pool code hpool hcode
  have htake : (pool ++ code).take n.toNat = pool := List.take_left' hpool
  have hdrop : (pool ++ code).drop n.toNat = code := List.drop_left' hpool
  have hload : State.load (n :: (pool ++ code)) = .next (State.loaded pool code) := by
    have hlong : n.toNat ≤ (pool ++ code).length := by
      rw [← hpool, List.length_append]; exact Nat.le_add_right _ _
    have hshort : ((pool ++ code).drop n.toNat).length ≤ Config.unit.maxCodeLen := by
      rw [hdrop]; exact hcode
    have hok := State.loadOn_ok hlong hshort
    rwa [htake, hdrop] at hok
  refine ⟨_, hload, rfl, rfl, rfl, Memory.read_nil, rfl, fun hnil => ?_, fun hne => ?_, rfl, rfl,
    rfl⟩
  · exact if_pos (List.length_eq_zero_iff.mpr hnil)
  · exact if_neg (List.length_eq_zero_iff.not.mpr hne)

/-- Settles O53: the one-byte image 0x00 has an empty pool and an empty stream. -/
theorem resetStateValues : Obligations.ResetStateValues :=
  ⟨rfl, rfl, rfl, Memory.read_nil, rfl, rfl, rfl, rfl, rfl, rfl⟩

/-- Settles O54, by the three values of STATUS. -/
theorem statusEncoding : Obligations.StatusEncoding := by
  refine ⟨rfl, rfl, rfl, fun st => ?_⟩
  cases st <;> decide

/-- Settles O55: the state after reset is that after the load of the image 0x00. -/
theorem invariantHoldsAtReset : Obligations.InvariantHoldsAtReset :=
  State.InvOn.of_loadOn resetStateValues.1

end Sys2Proof.Proofs
end

section
/-! PROOFS. The memory spaces (20_memory.md): what the decoder reads from the bytes of `CODE` (R31,
R35), the fetch that the end of `CODE` cuts off, and which of the spaces an instruction writes
(R36). -/

namespace Sys2Proof

open Sys2Proof.Claims

/-! ### The bytes of an instruction -/

/-- The map's `{b1, b2}` and the decoder's are one value. -/
theorem pair_eq_be16 (b1 b2 : Byte) : pair b1 b2 = be16 b1 b2 := by
  apply BitVec.eq_of_toNat_eq
  rw [be16_toNat, pair, BitVec.toNat_ofNat, Nat.mod_eq_of_lt]
  have := b1.isLt
  have := b2.isLt
  omega

theorem formatOf_of_mem_opcodesF2 {opcode : Byte} (h : opcode ∈ opcodesF2) :
    ∃ make, formatOf opcode = .f2 make := by
  simp only [opcodesF2, List.mem_cons, List.not_mem_nil, or_false] at h
  rcases h with rfl | rfl | rfl <;> exact ⟨_, rfl⟩

theorem formatOf_of_mem_opcodesF3 {opcode : Byte} (h : opcode ∈ opcodesF3) :
    ∃ make, formatOf opcode = .f3 make := by
  simp only [opcodesF3, List.mem_cons, List.not_mem_nil, or_false] at h
  rcases h with rfl | rfl | rfl | rfl | rfl | rfl <;> exact ⟨_, rfl⟩

/-- Fewer bytes than the opcode's length decode to the number of those missing (R51). -/
theorem decode_cut_off {opcode : Byte} {tail : List Byte} {len : Nat}
    (hlen : opcode ∈ opcodesF2 ∧ len = 2 ∨ opcode ∈ opcodesF3 ∧ len = 3)
    (hcut : (opcode :: tail).length < len) :
    decode (opcode :: tail) = .error (.missingOperands (len - (opcode :: tail).length)) := by
  obtain ⟨hop, rfl⟩ | ⟨hop, rfl⟩ := hlen
  · obtain ⟨make, hf⟩ := formatOf_of_mem_opcodesF2 hop
    match tail with
    | [] => simp [decode, hf]
    | _ :: _ => simp at hcut
  · obtain ⟨make, hf⟩ := formatOf_of_mem_opcodesF3 hop
    match tail with
    | [] | [_] => simp [decode, hf]
    | _ :: _ :: _ => simp only [List.length_cons] at hcut; omega

end Sys2Proof

namespace Sys2Proof.Machine

open Sys2Proof.Claims

/-- A fetch with operand bytes missing makes the step the fault OPERAND_FETCH (R96). -/
theorem step_missingOperands {s : State} {n : Nat} (hr : s.status = .running)
    (hf : s.fetch = .error (.missingOperands n)) :
    step s = .next (s.raise .operandFetch (BitVec.ofNat 16 n)) := by
  simp only [step, hr, hf, fetchFailed, trap]

/-! ### The spaces an instruction writes -/

/-- CODE and CP are as before, and LV is too, but for the slot that the instruction writes
(R36). -/
def WritesOnlyItsSlot (i : Instr) (s t : State) : Prop :=
  t.code = s.code ∧ t.cp = s.cp ∧ (writesSlot i = none → t.lv = s.lv) ∧
    ∀ j, writesSlot i = some j → ∀ k : Nat, k ≠ j.toNat →
      Memory.read t.lv k = Memory.read s.lv k

theorem WritesOnlyItsSlot.of_lv_eq {i : Instr} {s t : State} (hcode : t.code = s.code)
    (hcp : t.cp = s.cp) (hlv : t.lv = s.lv) : WritesOnlyItsSlot i s t :=
  ⟨hcode, hcp, fun _ => hlv, fun _ _ k _ => congrArg (Memory.read · k) hlv⟩

theorem WritesOnlyItsSlot.finish {i : Instr} {s t : State} (h : WritesOnlyItsSlot i s t) :
    WritesOnlyItsSlot i s t.finish := by
  simpa only [WritesOnlyItsSlot, State.finish_code, State.finish_cp, State.finish_lv] using h

theorem Effect.writesOnlyItsSlot {c : Config} {i : Instr} {s t : State} (h : Effect c i s t) :
    WritesOnlyItsSlot i s t := by
  obtain ⟨hcp, hcode, -⟩ := h.same_else
  rcases h.lv_eq with hlv | ⟨x, v, hx, -, hlv⟩
  · exact .of_lv_eq hcode hcp hlv
  · refine ⟨hcode, hcp, fun hnone => ?_, fun j hj k hk => ?_⟩
    · cases hx.symm.trans hnone
    · obtain rfl : x = j := Option.some.inj (hx.symm.trans hj)
      rw [hlv, Memory.read_write, if_neg hk]

/-- An instruction has its effect or takes a fault, which writes none of the three spaces. -/
theorem exec_writesOnlyItsSlot {i : Instr} {s t : State} (h : exec i s = .next t) :
    WritesOnlyItsSlot i s t := by
  rcases exec_next h with he | ⟨f, info, -, -, rfl⟩
  · exact he.writesOnlyItsSlot
  · exact .of_lv_eq rfl rfl rfl

/-- A step that fetched an ILOAD pushes the slot it names, and does not fault: on this unit every
index byte names a slot and the stack is unbounded. -/
theorem step_iload {s t : State} {index8 : Byte} {rest : List Byte}
    (hf : s.fetch = .ok (.iload index8, rest)) (h : step s = .next t) :
    t.stack = Memory.read s.lv index8.toNat :: s.stack ∧ t.status ≠ .fault := by
  have hr : s.status = .running := (step_next h).1
  have he : Effect Config.unit (.iload index8) s
      ((s.setStack (s.readLocal index8 :: s.stack)).advance 2) :=
    ⟨index8.isLt.trans (by decide), rfl, rfl⟩
  rw [step_eq_finish h hf (exec_iload index8 s)]
  exact ⟨State.finish_stack _, he.finish_not_fault hr⟩

end Sys2Proof.Machine

namespace Sys2Proof.Proofs

open Sys2Proof.Machine

/-- Settles O2: with the two-byte operand written as the decoder assembles it, each named row is what
the map computes; every other byte has the catch-all format. -/
theorem opcodeMapWithOperands : Obligations.OpcodeMapWithOperands := by
  intro b1 b2 rest
  rw [pair_eq_be16]
  exact ⟨rfl, rfl, rfl, rfl, rfl, rfl, rfl, rfl, rfl, rfl, rfl, rfl, rfl, rfl, rfl, rfl, rfl, rfl, rfl,
    fun hb => decode_f1 (formatOf_unlisted hb) rest⟩

/-- Settles O7: the bytes from `pc` to the end of CODE are the opcode and fewer operand bytes than
its format asks for. -/
theorem cutOffOperandsRaiseOperandFetch : Obligations.CutOffOperandsRaiseOperandFetch := by
  intro s opcode len hr hop hlen hshort
  obtain ⟨tail, hdrop, htail⟩ := drop_of_byte hop
  have hcut : (opcode :: tail).length < len := by rw [List.length_cons]; omega
  have hcount : len - (opcode :: tail).length = s.pc + len - s.code.length := by
    rw [List.length_cons]; omega
  have hfetch : s.fetch = .error (.missingOperands (s.pc + len - s.code.length)) := by
    rw [State.fetch_eq, hdrop, decode_cut_off hlen hcut, hcount]
  exact step_missingOperands hr hfetch

/-- Settles O36: no step between writes the slot, and an ILOAD pushes what it holds. -/
theorem loadAfterStoreReadsStoredByte : Obligations.LoadAfterStoreReadsStoredByte := by
  refine ⟨fun s t u v w i rest rest' _ _ _ _ hrun hload hstep => ?_, fun s t w i j hw h hne => ?_⟩
  · rw [← RunsWithoutWriting.read_eq hrun]
    exact step_iload hload hstep
  · obtain ⟨-, -, -, hother⟩ := exec_writesOnlyItsSlot h
    exact hother i hw j.toNat fun heq => hne (BitVec.eq_of_toNat_eq heq)

/-- Settles O44: a step is a fetch that faults, which writes no space, or the instruction fetched
and the end-of-run test, which writes STATUS only. -/
theorem instructionsWriteNoReadOnlyStore : Obligations.InstructionsWriteNoReadOnlyStore := by
  refine ⟨fun s t i h => exec_writesOnlyItsSlot h, fun s t h => ?_⟩
  obtain ⟨-, ⟨n, -, rfl⟩ | ⟨i, rest, u, hf, hx, rfl⟩⟩ := step_next h
  · exact ⟨rfl, rfl, fun _ => rfl, fun _ _ _ _ _ _ _ => rfl⟩
  · obtain ⟨hcode, hcp, hnone, hother⟩ := (exec_writesOnlyItsSlot hx).finish
    refine ⟨hcode, hcp, fun hall => hnone (hall i rest hf), fun i' rest' hd => ?_⟩
    cases hf.symm.trans hd
    exact hother

end Sys2Proof.Proofs
end

section
/-! PROOFS. The instruction encodings (30_encoding.md): decode and encode are inverse to each other,
the length of an instruction is told from its opcode (R56), and a step runs what decodes (R51,
R116). -/

namespace Sys2Proof

open Sys2Proof.Claims

/-! ### The round trip -/

/-- The round trip of every constructor: decode undoes encode and stops at its end (R45 to R50). -/
theorem decode_encode {i : Instr} (h : i.wf = true) (rest : List Byte) :
    decode (encode i ++ rest) = .ok (i, rest) := by
  cases i with
  | nop => exact Laws.RoundTrip.nop h rest
  | bipush imm8 => exact Laws.RoundTrip.bipush imm8 h rest
  | ldcW index16 => exact Laws.RoundTrip.ldcW index16 h rest
  | iload index8 => exact Laws.RoundTrip.iload index8 h rest
  | istore index8 => exact Laws.RoundTrip.istore index8 h rest
  | pop => exact Laws.RoundTrip.pop h rest
  | dup => exact Laws.RoundTrip.dup h rest
  | swap => exact Laws.RoundTrip.swap h rest
  | iadd => exact Laws.RoundTrip.iadd h rest
  | isub => exact Laws.RoundTrip.isub h rest
  | iand => exact Laws.RoundTrip.iand h rest
  | ior => exact Laws.RoundTrip.ior h rest
  | iinc index8 imm8 => exact Laws.RoundTrip.iinc index8 imm8 h rest
  | ifeq offset16 => exact Laws.RoundTrip.ifeq offset16 h rest
  | iflt offset16 => exact Laws.RoundTrip.iflt offset16 h rest
  | ifIcmpeq offset16 => exact Laws.RoundTrip.ifIcmpeq offset16 h rest
  | goto offset16 => exact Laws.RoundTrip.goto offset16 h rest
  | ireturn => exact Laws.RoundTrip.ireturn h rest
  | invokevirtual => exact Laws.RoundTrip.invokevirtual h rest
  | unlisted opcode => exact Laws.RoundTrip.unlisted opcode h rest

/-- The decoder reads the catch-all row from an unnamed byte only (R50). -/
theorem decode_ok_wf {bytes rest : List Byte} {i : Instr} (h : decode bytes = .ok (i, rest)) :
    i.wf = true := by
  obtain ⟨_, ⟨-, hf⟩ | ⟨make, b1, -, hf, rfl⟩ | ⟨make, b1, b2, -, hf, rfl⟩⟩ := decode_ok h
  · exact (formatOf_f1 hf).2
  · exact (formatOf_f2 hf b1).2
  · exact (formatOf_f3 hf b1 b2).2

/-- The encodings of the well-formed instructions are a prefix code. -/
theorem encode_append_inj {i j : Instr} {rest rest' : List Byte} (hi : i.wf = true)
    (hj : j.wf = true) (h : encode i ++ rest = encode j ++ rest') : i = j ∧ rest = rest' := by
  have hread : (Except.ok (i, rest) : Except DecodeError _) = .ok (j, rest') := by
    rw [← decode_encode hi, h, decode_encode hj]
  exact Prod.mk.inj (Except.ok.inj hread)

/-! ### The length of an instruction -/

theorem formatOf_of_mem_opcodesF1 {opcode : Byte} (h : opcode ∈ opcodesF1) :
    ∃ i, formatOf opcode = .f1 i := by
  simp only [opcodesF1, List.mem_cons, List.not_mem_nil, or_false] at h
  rcases h with rfl | rfl | rfl | rfl | rfl | rfl | rfl | rfl <;> exact ⟨_, rfl⟩

/-- One or two missing operand bytes of format F3 are counted (R51). -/
theorem cutOffF3_of_mem_opcodesF3 {opcode : Byte} (h : opcode ∈ opcodesF3) : CutOffF3 opcode :=
  ⟨decode_cut_off (.inr ⟨h, rfl⟩) (by simp), fun _ => decode_cut_off (.inr ⟨h, rfl⟩) (by simp)⟩

/-- The named opcodes are those of the three formats, IRETURN's and INVOKEVIRTUAL's (R50, R56). -/
theorem namedOpcodes_formats : ∀ opcode ∈ namedOpcodes,
    opcode ∈ opcodesF1 ∨ opcode ∈ opcodesF2 ∨ opcode ∈ opcodesF3 ∨
      opcode = 0xAC#8 ∨ opcode = 0xB6#8 := by
  decide

/-- An opcode with no semantics decodes alone, whatever follows it (R50, R51). -/
theorem decode_no_semantics {opcode : Byte} (h1 : opcode ∉ opcodesF1) (h2 : opcode ∉ opcodesF2)
    (h3 : opcode ∉ opcodesF3) (rest : List Byte) :
    ∃ i, decode (opcode :: rest) = .ok (i, rest) ∧
      (i = .ireturn ∨ i = .invokevirtual ∨ i = .unlisted opcode) := by
  rcases formatOf_named_or_unlisted opcode with hnamed | ⟨-, hf⟩
  · rcases namedOpcodes_formats opcode hnamed with h | h | h | rfl | rfl
    · exact absurd h h1
    · exact absurd h h2
    · exact absurd h h3
    · exact ⟨.ireturn, rfl, .inl rfl⟩
    · exact ⟨.invokevirtual, rfl, .inr (.inl rfl)⟩
  · exact ⟨.unlisted opcode, decode_f1 hf rest, .inr (.inr rfl)⟩

end Sys2Proof

namespace Sys2Proof.Machine

/-- A step of a RUNNING unit is the meaning of the instruction fetched, then the test for the end of
the run (R116). -/
theorem step_of_fetch {s t : State} {i : Instr} {rest : List Byte} (hr : s.status = .running)
    (hf : s.fetch = .ok (i, rest)) (he : exec i s = .next t) : step s = .next t.finish := by
  simp only [step, hr, hf, he, finishStep]

end Sys2Proof.Machine

namespace Sys2Proof.Proofs

open Sys2Proof.Machine

/-- Settles O4: the round trip holds of each constructor. -/
theorem decodeOfEncodeIsIdentity : Obligations.DecodeOfEncodeIsIdentity :=
  fun _ rest hwf => decode_encode hwf rest

/-- Settles O5: the format of the opcode gives back the bytes read; and two well-formed instructions
with the same bytes are both what the decoder reads from them. -/
theorem decodedBytesAreTheEncoding : Obligations.DecodedBytesAreTheEncoding :=
  ⟨fun _ _ _ h => ⟨decode_ok_encode h, decode_ok_wf h⟩,
    fun _ _ _ _ hi hj h => encode_append_inj hi hj h⟩

/-- Settles O3: each list of R56 has one format, and every other opcode is decoded alone. -/
theorem lengthFollowsFromOpcode : Obligations.LengthFollowsFromOpcode := by
  intro opcode rest
  refine ⟨fun h1 => ?_, fun h2 => ?_, fun h3 => ?_,
    fun h1 h2 h3 => decode_no_semantics h1 h2 h3 rest⟩
  · obtain ⟨i, hf⟩ := formatOf_of_mem_opcodesF1 h1
    exact ⟨i, decode_f1 hf⟩
  · obtain ⟨make, hf⟩ := formatOf_of_mem_opcodesF2 h2
    exact ⟨decode_cut_off (.inl ⟨h2, rfl⟩) (by simp),
      fun b1 => ⟨make b1, decode_f2 hf b1 rest⟩⟩
  · obtain ⟨make, hf⟩ := formatOf_of_mem_opcodesF3 h3
    exact ⟨cutOffF3_of_mem_opcodesF3 h3, fun b1 b2 => ⟨make b1 b2, decode_f3 hf b1 b2 rest⟩⟩

/-- Settles O1: the decoder computes each of the words. -/
theorem writtenWordsDecode : Obligations.WrittenWordsDecode :=
  ⟨rfl, rfl, rfl, rfl, rfl, rfl, rfl, rfl, rfl, rfl, rfl⟩

/-- Settles O6: the fetch decodes the bytes of CODE from `pc`, and the end-of-run test is the last
part of the step. -/
theorem stepRunsDecodedInstruction : Obligations.StepRunsDecodedInstruction :=
  fun s _ _ _ hr hd he => step_of_fetch hr ((State.fetch_eq s).trans hd) he

end Sys2Proof.Proofs
end

section
/-! PROOFS. The constant and stack-manipulation instructions (40_stack_const.md R61 to R66): the
meaning of each under the conditions it checks, POP after a push, SWAP after SWAP, and a unit on
which every instruction but NOP faults. -/

namespace Sys2Proof.Machine

/-! ### The meanings, check by check -/

/-- A finite stack that holds STACK_DEPTH entries has no room for one more (R98). -/
theorem room_at_depth {c : Config} {s : State} (h : c.stackDepth = some s.stack.length)
    (k : Result) : room c s k = trap s .stackOverflow 0 :=
  room_full (by simp [fits, h]) k

theorem exec_bipush (imm8 : Byte) (s : State) : exec (.bipush imm8) s =
    .next ((s.setStack (imm8 :: s.stack)).advance 2) :=
  room_unit s _

theorem runDup_cons {s : State} {a : Byte} {below : List Byte} (h : s.stack = a :: below)
    (c : Config) :
    runDup c s = room c s (.next ((s.setStack (a :: s.stack)).advance 1)) := by
  rw [runDup, needOne_cons h, h]

theorem exec_dup {s : State} {a : Byte} {below : List Byte} (h : s.stack = a :: below) :
    exec .dup s = .next ((s.setStack (a :: s.stack)).advance 1) :=
  (runDup_cons h Config.unit).trans (room_unit s _)

theorem runLdcW_within {s : State} {index16 : Half} (h : index16.toNat < s.cp.length)
    (c : Config) : runLdcW c index16 s =
      room c s (.next ((s.setStack (s.cp[index16.toNat] :: s.stack)).advance 3)) := by
  simp only [runLdcW, Store.byte, constIndex, List.getElem?_eq_getElem h]

theorem runLdcW_beyond {s : State} {index16 : Half} (h : s.cp.length ≤ index16.toNat)
    (c : Config) : runLdcW c index16 s = trap s .constIndex index16 := by
  simp only [runLdcW, Store.byte, constIndex, List.getElem?_eq_none h]

theorem exec_pop {s : State} {a : Byte} {below : List Byte} (h : s.stack = a :: below) :
    exec .pop s = .next ((s.setStack below).advance 1) :=
  needOne_cons h _

theorem exec_swap {s : State} {a b : Byte} {below : List Byte} (h : s.stack = a :: b :: below) :
    exec .swap s = .next ((s.setStack (b :: a :: below)).advance 1) :=
  needTwo_cons h _

/-! ### One instruction after another -/

/-- A POP after an instruction that only pushed an entry leaves the stack as it was before both. -/
theorem exec_pop_of_pushed (s : State) (v : Byte) (len : Nat) :
    exec .pop ((s.setStack (v :: s.stack)).advance len) = .next (s.advance (len + 1)) :=
  exec_pop rfl

/-- A SWAP after a SWAP of the entries `a` and `b` puts them back. -/
theorem exec_swap_of_swapped {s : State} {a b : Byte} {below : List Byte}
    (h : s.stack = a :: b :: below) :
    exec .swap ((s.setStack (b :: a :: below)).advance 1) = .next (s.advance 2) := by
  rw [exec_swap rfl, ← h]
  rfl

theorem State.exists_top_two {s : State} (h : 2 ≤ s.stack.length) :
    ∃ a b below, s.stack = a :: b :: below := by
  match hs : s.stack with
  | a :: b :: below => exact ⟨a, b, below, rfl⟩
  | [_] | [] => simp [hs] at h

/-! ### A unit on which only NOP does not fault -/

/-- Parameters that give an instruction nothing: no slot, and no room on the stack (R5). -/
def Config.starved : Config := { localsSize := 0, stackDepth := some 0, pcWidth := 16 }

/-- A RUNNING state that gives an instruction nothing: no entry, no constant, and a `pc` from which
no 16-bit offset reaches 0, the only legal target when CODE is empty. -/
def State.starved : State := { State.reset with pc := 32769, status := .running }

theorem State.starved_not_branched (offset16 : Half) (stack : List Byte) (t : State) :
    ¬ Effect.Branched true State.starved offset16 stack t := by
  rintro (⟨hfalse, -⟩ | ⟨-, -, htarget, -⟩)
  · cases hfalse
  · have hoffset : -32768 ≤ offset16.toInt := BitVec.le_toInt offset16
    have hlegal : (32769 : Int) + offset16.toInt ≤ 0 := htarget
    omega

/-- Every instruction but NOP asks for something: an entry, room for one, a constant, a slot, a
target, or semantics (R102). -/
theorem State.starved_no_effect {i : Instr} (h : i ≠ .nop) (t : State) :
    ¬ Effect Config.starved i State.starved t := by
  intro he
  cases i with
  | nop => exact h rfl
  | bipush =>
    obtain ⟨hroom, -⟩ := he
    cases hroom
  | ldcW =>
    obtain ⟨_, hconstant, -⟩ := he
    cases hconstant
  | iload | iinc =>
    obtain ⟨hslot, -⟩ := he
    exact Nat.not_lt_zero _ hslot
  | istore | pop | dup | ifeq | iflt =>
    obtain ⟨_, _, hentry, -⟩ := he
    cases hentry
  | swap | iadd | isub | iand | ior | ifIcmpeq =>
    obtain ⟨_, _, _, hentries, -⟩ := he
    cases hentries
  | goto offset16 => exact State.starved_not_branched offset16 _ t he
  | ireturn | invokevirtual | unlisted => exact he

theorem execOn_starved_faults {i : Instr} (h : i ≠ .nop) :
    ∃ t, execOn Config.starved i State.starved = .next t ∧ t.status = .fault := by
  obtain ⟨t, ht⟩ := answers_execOn Config.starved i State.starved
  rcases execOn_next ht with he | ⟨f, info, -, -, rfl⟩
  · exact absurd he (State.starved_no_effect h t)
  · exact ⟨_, ht, rfl⟩

end Sys2Proof.Machine

namespace Sys2Proof.Proofs

open Sys2Proof.Machine

/-- Settles O23: the pool entry is read first, and the room is checked when there is one. -/
theorem ldcWPushesConstant : Obligations.LdcWPushesConstant := by
  refine ⟨fun b1 b2 rest => ?_, cutOffF3_of_mem_opcodesF3 (by decide), fun s k h => ?_,
    fun c s k h => runLdcW_beyond h c,
    fun c s k h hfull => (runLdcW_within h c).trans (room_at_depth hfull _)⟩
  · rw [pair_eq_be16]
    rfl
  · exact (runLdcW_within h Config.unit).trans (room_unit s _)

/-- Settles O20: NOP has no check, and on the starved unit each other instruction fails one. -/
theorem nopOnlyAdvancesPc : Obligations.NopOnlyAdvancesPc := by
  refine ⟨decode_f1 rfl, fun _ => rfl, fun i hi => ?_⟩
  obtain ⟨t, ht, hfault⟩ := execOn_starved_faults hi
  exact ⟨Config.starved, State.starved, t, rfl, ht, hfault⟩

/-- Settles O21: the only check is the room, which this unit always has. -/
theorem bipushPushesImmediate : Obligations.BipushPushesImmediate :=
  ⟨decode_f2 rfl, rfl, fun s b1 => exec_bipush b1 s, fun _ _ _ hfull => room_at_depth hfull _,
    fun s b1 => ⟨_, exec_bipush b1 s, exec_pop_of_pushed s b1 2⟩⟩

/-- Settles O22: an empty stack fails the first check, before the room is looked at. -/
theorem dupCopiesTop : Obligations.DupCopiesTop := by
  refine ⟨decode_f1 rfl, fun s v below hs => ?_, fun _ _ hs => needOne_nil hs _,
    fun c s hne hfull => ?_, fun s hne => ?_⟩
  · rw [exec_dup hs, hs]
    rfl
  · obtain ⟨a, below, hs⟩ := List.exists_cons_of_ne_nil hne
    exact (runDup_cons hs c).trans (room_at_depth hfull _)
  · obtain ⟨a, below, hs⟩ := List.exists_cons_of_ne_nil hne
    exact ⟨_, exec_dup hs, exec_pop_of_pushed s a 1⟩

/-- Settles O24: the only check is that there is an entry. -/
theorem popDiscardsTop : Obligations.PopDiscardsTop :=
  ⟨decode_f1 rfl, fun _ _ _ hs => exec_pop hs, fun _ hs => needOne_nil hs _⟩

/-- Settles O25: the only check is that there are two entries, and no parameter is read. -/
theorem swapExchangesTopTwo : Obligations.SwapExchangesTopTwo := by
  refine ⟨decode_f1 rfl, fun _ _ => rfl, fun _ _ _ _ hs => exec_swap hs,
    fun _ hshort => needTwo_short hshort _, fun s htwo => ?_⟩
  obtain ⟨a, b, below, hs⟩ := State.exists_top_two htwo
  exact ⟨_, exec_swap hs, exec_swap_of_swapped hs⟩

end Sys2Proof.Proofs
end

section
/-! PROOFS. The ALU and its instructions (41_alu.md R67 to R75): the adder and the subtractor in
their unsigned and signed readings, the wrap at the signed boundary, and what the four instructions
share. -/

namespace Sys2Proof.Machine

/-! ### The readings of the adder and the subtractor -/

/-- The adder is the unsigned sum narrowed to a byte (R68). -/
theorem add8_eq_ofNat (x y : Byte) : add8 x y = BitVec.ofNat 8 (x.toNat + y.toNat) := by
  rw [add8, u8, ← Nat.cast_add, BitVec.ofInt_natCast]

theorem add8_eq_add (x y : Byte) : add8 x y = x + y :=
  (add8_eq_ofNat x y).trans (BitVec.add_def x y).symm

theorem ofInt_sub (m n : Int) :
    BitVec.ofInt 8 (m - n) = BitVec.ofInt 8 m - BitVec.ofInt 8 n := by
  rw [Int.sub_eq_add_neg, BitVec.ofInt_add, BitVec.ofInt_neg, BitVec.sub_eq_add_neg]

theorem ofInt_toNat (x : Byte) : BitVec.ofInt 8 x.toNat = x := by
  rw [BitVec.ofInt_natCast, BitVec.ofNat_toNat, BitVec.setWidth_eq]

theorem sub8_eq_sub (x y : Byte) : sub8 x y = x - y := by
  rw [sub8, u8, ofInt_sub, ofInt_toNat, ofInt_toNat]

/-- The adder is the signed sum narrowed to a byte (R68). -/
theorem add8_eq_ofInt (x y : Byte) : add8 x y = BitVec.ofInt 8 (x.toInt + y.toInt) := by
  rw [add8_eq_add, BitVec.ofInt_add, BitVec.ofInt_toInt, BitVec.ofInt_toInt]

/-- The subtractor is the signed difference narrowed to a byte (R69). -/
theorem sub8_eq_ofInt (x y : Byte) : sub8 x y = BitVec.ofInt 8 (x.toInt - y.toInt) := by
  rw [sub8_eq_sub, ofInt_sub, BitVec.ofInt_toInt, BitVec.ofInt_toInt]

/-! ### The wrap at the signed boundary -/

/-- The wrap rule of R68 and R69, for an exact result `n` and the signed reading `z` of the byte it
gives. -/
def WrapsTo (n z : Int) : Prop :=
  (-128 ≤ n → n ≤ 127 → z = n) ∧ (127 < n → z = n - 256) ∧ (n < -128 → z = n + 256)

/-- Narrowing wraps by 256 at most once as long as the exact result lies no further than 256 outside
-128..127, where every sum and difference of two signed readings lies. -/
theorem wrapsTo_toInt_ofInt {n : Int} (hmin : -384 ≤ n) (hmax : n < 384) :
    WrapsTo n (BitVec.ofInt 8 n).toInt := by
  rw [BitVec.toInt_ofInt]
  refine ⟨fun _ _ => ?_, fun _ => ?_, fun _ => ?_⟩ <;> simp only [Int.bmod_def] <;> omega

theorem toInt_bounds (x : Byte) : -128 ≤ x.toInt ∧ x.toInt < 128 :=
  ⟨BitVec.le_toInt x, BitVec.toInt_lt⟩

theorem add8_wraps (x y : Byte) : WrapsTo (x.toInt + y.toInt) (add8 x y).toInt := by
  obtain ⟨_, _⟩ := toInt_bounds x
  obtain ⟨_, _⟩ := toInt_bounds y
  rw [add8_eq_ofInt]
  exact wrapsTo_toInt_ofInt (by omega) (by omega)

theorem sub8_wraps (x y : Byte) : WrapsTo (x.toInt - y.toInt) (sub8 x y).toInt := by
  obtain ⟨_, _⟩ := toInt_bounds x
  obtain ⟨_, _⟩ := toInt_bounds y
  rw [sub8_eq_ofInt]
  exact wrapsTo_toInt_ofInt (by omega) (by omega)

/-! ### What the four instructions share -/

theorem binary_cons {s : State} {a b : Byte} {below : List Byte} (h : s.stack = a :: b :: below)
    (f : Byte → Byte → Byte) :
    binary f s = .next ((s.setStack (f a b :: below)).advance 1) :=
  needTwo_cons h _

theorem binary_short {s : State} (h : s.sp < 2) (f : Byte → Byte → Byte) :
    binary f s = trap s .stackUnderflow (BitVec.ofNat 16 s.sp) :=
  needTwo_short h _

end Sys2Proof.Machine

namespace Sys2Proof.Proofs

open Sys2Proof.Machine

/-- Settles O30: the sum of the unsigned readings and that of the signed ones narrow to the same
byte, and the latter wraps. -/
theorem additionWrapsAtTheSignedBoundary : Obligations.AdditionWrapsAtTheSignedBoundary := by
  refine ⟨fun x y => ?_, by decide⟩
  obtain ⟨hwithin, habove, hbelow⟩ := add8_wraps x y
  refine ⟨add8_eq_ofNat x y, add8_eq_ofInt x y, hwithin, habove, hbelow, ?_, ?_⟩
  · rw [add8_eq_add, add8_eq_add, BitVec.add_comm]
  · exact (add8_eq_add x 0).trans (BitVec.add_zero x)

/-- Settles O31: the differences of the unsigned and of the signed readings narrow to the same byte,
and the latter wraps. -/
theorem subtractionWrapsAtTheSignedBoundary :
    Obligations.SubtractionWrapsAtTheSignedBoundary := by
  refine ⟨fun x y => ?_, by decide⟩
  obtain ⟨hwithin, habove, hbelow⟩ := sub8_wraps x y
  exact ⟨rfl, sub8_eq_ofInt x y, hwithin, habove, hbelow,
    (sub8_eq_sub x x).trans (BitVec.sub_self x)⟩

/-- Settles O26: the entry pushed is the adder's, read as the signed sum narrowed. -/
theorem iaddPushesWrappedSum : Obligations.IaddPushesWrappedSum := by
  refine ⟨decode_f1 rfl, fun _ _ => rfl, fun s a b below hs => ?_,
    fun _ hshort => binary_short hshort add8⟩
  rw [← add8_eq_ofInt]
  exact binary_cons hs add8

/-- Settles O27: the top stands on the left of the subtractor. -/
theorem isubPushesTopMinusBelow : Obligations.IsubPushesTopMinusBelow := by
  refine ⟨decode_f1 rfl, fun _ _ => rfl, fun s a b below hs => ?_,
    fun _ hshort => binary_short hshort sub8⟩
  rw [← sub8_eq_ofInt]
  exact binary_cons hs sub8

/-- Settles O28: the byte pushed is `and8 a b`. -/
theorem iandPushesBitwiseAnd : Obligations.IandPushesBitwiseAnd :=
  ⟨decode_f1 rfl, fun _ _ => rfl,
    fun _ a b _ hs => ⟨and8 a b, fun _ _ => BitVec.getLsbD_and, binary_cons hs and8⟩,
    fun _ hshort => binary_short hshort and8⟩

/-- Settles O29: the byte pushed is `or8 a b`. -/
theorem iorPushesBitwiseOr : Obligations.IorPushesBitwiseOr :=
  ⟨decode_f1 rfl, fun _ _ => rfl,
    fun _ a b _ hs => ⟨or8 a b, fun _ _ => BitVec.getLsbD_or, binary_cons hs or8⟩,
    fun _ hshort => binary_short hshort or8⟩

end Sys2Proof.Proofs
end

section
/-! PROOFS. The local-variable instructions (42_locals.md R76 to R79): the effect of ISTORE and
the slots after a write. -/

namespace Sys2Proof.Machine

theorem runIstore_cons {s : State} {a : Byte} {below : List Byte} (h : s.stack = a :: below)
    (c : Config) (index8 : Byte) : runIstore c index8 s =
      slot c index8 s (.next (((s.writeLocal index8 a).setStack below).advance 2)) :=
  needOne_cons h _

theorem exec_istore {s : State} {a : Byte} {below : List Byte} (h : s.stack = a :: below)
    (index8 : Byte) : exec (.istore index8) s =
      .next (((s.writeLocal index8 a).setStack below).advance 2) :=
  (runIstore_cons h Config.unit index8).trans (slot_unit index8 s _)

/-- A write of a slot is read back there, and every other slot is as before. -/
theorem State.read_writeLocal (s : State) (index8 v : Byte) (k : Nat) :
    Memory.read (s.writeLocal index8 v).lv k =
      if k = index8.toNat then v else Memory.read s.lv k :=
  Memory.read_write s.lv index8.toNat k v

end Sys2Proof.Machine

namespace Sys2Proof.Proofs

open Sys2Proof.Machine

/-- Settles O33: the slot written gets the adder's byte, read as the signed sum narrowed, and the
slot is the only check. -/
theorem iincAddsImmediateToSlot : Obligations.IincAddsImmediateToSlot := by
  refine ⟨decode_f3 rfl, cutOffF3_of_mem_opcodesF3 (by decide), fun s i n => ?_,
    fun _ s _ _ hslot => slot_bad hslot s _⟩
  refine ⟨_, exec_iinc i n s, fun k => ?_, rfl, rfl, rfl, rfl, rfl, rfl, rfl, rfl⟩
  rw [← add8_eq_ofInt]
  exact State.read_writeLocal s i _ k

/-- Settles O34: the slot is checked first, and the room when there is one; a slot that no step of
the run wrote is zero. -/
theorem iloadPushesSlot : Obligations.IloadPushesSlot := by
  refine ⟨decode_f2 rfl, rfl, fun s i => exec_iload i s, fun _ s _ hslot => slot_bad hslot s _,
    fun c s i hslot hfull => (slot_ok hslot s _).trans (room_at_depth hfull _),
    fun image s u i hload hrun => ?_⟩
  obtain ⟨hzero, -, -⟩ := unwrittenSlotReadsZero image s u i hload hrun
  rw [← hzero]
  exact exec_iload i u

/-- Settles O35: an empty stack fails the first check; with a top, the slot is the only other
one. -/
theorem istoreMovesTopToSlot : Obligations.IstoreMovesTopToSlot := by
  refine ⟨decode_f2 rfl, rfl, fun s i v below hs => ?_, fun _ _ _ hs => needOne_nil hs _,
    fun c s i hne hslot => ?_⟩
  · exact ⟨_, exec_istore hs i, State.read_writeLocal s i v, rfl, rfl, rfl, rfl, rfl, rfl, rfl, rfl⟩
  · obtain ⟨a, below, hs⟩ := List.exists_cons_of_ne_nil hne
    exact (runIstore_cons hs c i).trans (slot_bad hslot s _)

end Sys2Proof.Proofs
end

section
/-! PROOFS. The branches (43_branch.md R81 to R88): the tests of the ALU in their signed form (R83),
what a taken and a not taken branch make, and the branch with offset 0, which names its own opcode
byte (R119). -/

namespace Sys2Proof

open Sys2Proof.Claims

/-- The two operand bytes of a branch are read as the 16-bit value the map gives it (R35, R50). -/
theorem decode_f3_pair {opcode : Byte} {make : Half → Instr}
    (h : formatOf opcode = .f3 fun b1 b2 => make (be16 b1 b2)) (b1 b2 : Byte)
    (rest : List Byte) : decode (opcode :: b1 :: b2 :: rest) = .ok (make (pair b1 b2), rest) := by
  rw [pair_eq_be16]
  exact decode_f3 h b1 b2 rest

end Sys2Proof

namespace Sys2Proof.Machine

open Sys2Proof.Claims

/-! ### The tests -/

theorem zeroTest_iff_toInt (a : Byte) : zeroTest a = true ↔ a.toInt = 0 := by
  rw [zeroTest_iff, ← BitVec.toInt_inj, BitVec.toInt_zero]

theorem zeroTest_iff_bits (a : Byte) : zeroTest a = true ↔ ∀ k < 8, a.getLsbD k = false := by
  simp only [zeroTest_iff, BitVec.eq_of_getLsbD_eq_iff, BitVec.getLsbD_zero]

/-- The negative bytes are 0x80..0xFF (R87). -/
theorem negTest_iff_toNat (a : Byte) : negTest a = true ↔ 0x80 ≤ a.toNat := by
  rw [negTest_iff, BitVec.toInt_neg_iff]
  omega

theorem eqTest_iff_bits (a b : Byte) :
    eqTest a b = true ↔ ∀ k < 8, a.getLsbD k = b.getLsbD k :=
  (eqTest_iff a b).trans BitVec.eq_of_getLsbD_eq_iff

theorem eqTest_iff_sub8 (a b : Byte) : eqTest a b = true ↔ sub8 a b = 0 := by
  rw [eqTest_iff, sub8_eq_sub, sub_eq_zero]

/-! ### Branch resolution -/

theorem branchTo_of_legalTarget {s : State} {offset16 : Half} (h : LegalTarget s offset16)
    (stack : List Byte) : branchTo s offset16 stack =
      .next { s with stack := stack, pc := (target s offset16).toNat } :=
  branchTo_legal stack h.1 h.2

theorem branchTo_of_not_legalTarget {s : State} {offset16 : Half} (h : ¬ LegalTarget s offset16)
    (stack : List Byte) : branchTo s offset16 stack =
      .next (faulted s Claims.branchTarget offset16) := by
  refine branchTo_illegal stack ?_
  simp only [LegalTarget, target, State.codeLen] at h ⊢
  omega

/-- A conditional branch whose test decides `taken` once its operands are popped (R82, R84). -/
theorem branchRule_of_exec {i : Instr} {s : State} {test : Bool} {taken : Prop} {offset16 : Half}
    {below : List Byte} (he : exec i s = branchIf test s offset16 below)
    (ht : test = true ↔ taken) : BranchRule i s taken offset16 below := by
  rw [BranchRule, he, ← ht]
  refine ⟨fun h hlegal => ?_, fun h hillegal => ?_, fun h => if_neg h⟩
  · exact (if_pos h).trans (branchTo_of_legalTarget hlegal below)
  · exact (if_pos h).trans (branchTo_of_not_legalTarget hillegal below)

theorem exec_ifeq {s : State} {a : Byte} {below : List Byte} (h : s.stack = a :: below)
    (offset16 : Half) :
    exec (.ifeq offset16) s = branchIf (zeroTest a) s offset16 below :=
  needOne_cons h _

theorem exec_iflt {s : State} {a : Byte} {below : List Byte} (h : s.stack = a :: below)
    (offset16 : Half) :
    exec (.iflt offset16) s = branchIf (negTest a) s offset16 below :=
  needOne_cons h _

theorem exec_ifIcmpeq {s : State} {a b : Byte} {below : List Byte}
    (h : s.stack = a :: b :: below) (offset16 : Half) :
    exec (.ifIcmpeq offset16) s = branchIf (eqTest a b) s offset16 below :=
  needTwo_cons h _

/-! ### Offset 0 -/

/-- The target of offset 0 is the branch's own opcode byte, which lies in CODE (R82). -/
theorem branchTo_zero {s : State} (hpc : s.pc ≤ s.code.length) (stack : List Byte) :
    branchTo s 0 stack = .next (s.setStack stack) := by
  have htarget : target s 0 = s.pc := Int.add_zero _
  have hlegal : LegalTarget s 0 := by rw [LegalTarget, htarget]; omega
  rw [branchTo_of_legalTarget hlegal, htarget]
  rfl

/-- The opcode byte of the instruction fetched lies in CODE (R31). -/
theorem fetch_ok_pc_lt {s : State} {i : Instr} {rest : List Byte}
    (h : s.fetch = .ok (i, rest)) : s.pc < s.code.length :=
  (Nat.lt_add_of_pos_right (encode_length_pos i)).trans_le (fetch_ok_within h)

/-- Before the end of CODE the end-of-run test finds nothing to do (R116). -/
theorem State.finish_of_pc_lt {s : State} (h : s.pc < s.code.length) : s.finish = s :=
  if_neg fun hend => Nat.ne_of_lt h hend.2

/-- A step that takes a branch with offset 0 leaves everything but the stack as it was, `pc` and
STATUS among them. -/
theorem step_branchTo_zero {s : State} {i : Instr} {stack rest : List Byte}
    (hr : s.status = .running) (hf : s.fetch = .ok (i, rest))
    (he : exec i s = branchTo s 0 stack) : step s = .next { s with stack := stack } := by
  have hpc := fetch_ok_pc_lt hf
  rw [step_of_fetch hr hf (he.trans (branchTo_zero hpc.le stack))]
  exact congrArg Host.Outcome.next (State.finish_of_pc_lt (s := s.setStack stack) hpc)

/-- A conditional branch whose test holds is resolved like a GOTO that leaves `below`. -/
theorem exec_taken {i : Instr} {s : State} {test : Bool} {offset16 : Half} {below : List Byte}
    (he : exec i s = branchIf test s offset16 below) (ht : test = true) :
    exec i s = branchTo s offset16 below :=
  he.trans (if_pos ht)

/-- A state whose step is that state itself is the state after any number of steps. -/
theorem core_run_of_step_self {s : State} (h : step s = .next s) (n : Nat) :
    Sys2Proof.core.run n s = .next s := by
  induction n with
  | zero => rfl
  | succ n ih =>
    have hstep : Sys2Proof.core.step s = .next s := h
    simp only [Host.Core.run, hstep, ih]

end Sys2Proof.Machine

namespace Sys2Proof.Proofs

open Sys2Proof.Machine

/-- Settles O39: the resolution is given the stack as it stands. -/
theorem gotoAddsOffsetToOwnIndex : Obligations.GotoAddsOffsetToOwnIndex :=
  ⟨decode_f3_pair (make := .goto) rfl, cutOffF3_of_mem_opcodesF3 (by decide),
    fun s o hlegal => branchTo_of_legalTarget hlegal s.stack,
    fun s o hillegal => branchTo_of_not_legalTarget hillegal s.stack⟩

/-- Settles O40: the test of the byte 0 is that of the signed value 0. -/
theorem ifeqBranchesOnZero : Obligations.IfeqBranchesOnZero :=
  ⟨decode_f3_pair (make := .ifeq) rfl, cutOffF3_of_mem_opcodesF3 (by decide),
    fun s o a below hs => branchRule_of_exec (exec_ifeq hs o) (zeroTest_iff_toInt a),
    fun _ _ hs => needOne_nil hs _⟩

/-- Settles O41: the test of bit 7 is that of a negative signed value. -/
theorem ifltBranchesOnNegative : Obligations.IfltBranchesOnNegative :=
  ⟨decode_f3_pair (make := .iflt) rfl, cutOffF3_of_mem_opcodesF3 (by decide),
    fun s o a below hs => branchRule_of_exec (exec_iflt hs o) (negTest_iff a),
    fun _ _ hs => needOne_nil hs _⟩

/-- Settles O42: with fewer than two entries the check fails before any is popped. -/
theorem ifIcmpeqBranchesOnEquality : Obligations.IfIcmpeqBranchesOnEquality :=
  ⟨decode_f3_pair (make := .ifIcmpeq) rfl, cutOffF3_of_mem_opcodesF3 (by decide),
    fun s o a b below hs => branchRule_of_exec (exec_ifIcmpeq hs o) (eqTest_iff a b),
    fun _ _ hshort => needTwo_short hshort _⟩

/-- Settles O43: a taken branch with offset 0 writes only the stack it leaves, which for GOTO is the
stack as it was. -/
theorem gotoWithOffsetZeroLoopsForEver : Obligations.GotoWithOffsetZeroLoopsForEver := by
  refine ⟨fun s rest hr hcode => ?_, fun s below rest hr hcode hs => ?_,
    fun s a below rest hr hcode hs hneg => ?_, fun s a below rest hr hcode hs => ?_⟩
  · have hf : s.fetch = .ok (.goto 0, rest) := congrArg decode hcode
    exact core_run_of_step_self (step_branchTo_zero hr hf rfl)
  · have hf : s.fetch = .ok (.ifeq 0, rest) := congrArg decode hcode
    exact step_branchTo_zero hr hf (exec_taken (exec_ifeq hs 0) rfl)
  · have hf : s.fetch = .ok (.iflt 0, rest) := congrArg decode hcode
    exact step_branchTo_zero hr hf (exec_taken (exec_iflt hs 0) ((negTest_iff a).mpr hneg))
  · have hf : s.fetch = .ok (.ifIcmpeq 0, rest) := congrArg decode hcode
    exact step_branchTo_zero hr hf (exec_taken (exec_ifIcmpeq hs 0) ((eqTest_iff a a).mpr rfl))

/-- Settles O32: each form determines the byte, or bit 7 of it, on which the model's test looks. -/
theorem aluTests : Obligations.AluTests :=
  fun a b => ⟨zeroTest_iff_bits a, zeroTest_iff_toInt a, Iff.rfl, negTest_iff a,
    negTest_iff_toNat a, eqTest_iff_bits a b, eqTest_iff_sub8 a b⟩

end Sys2Proof.Proofs
end

section
/-! PROOFS. The opcodes with no semantics (44_unimplemented.md R89 to R91): each meaning is the one
trap of R97, whose FINFO is the opcode byte extended with zeros, and each byte is decoded alone, in
format F1. -/

namespace Sys2Proof.Machine

open Sys2Proof.Claims

/-- The trap of R97 writes the four fault registers, with the opcode byte in FINFO. -/
theorem unsupported_eq_faulted (opcode : Byte) (s : State) :
    unsupported opcode s =
      .next (faulted s unsupportedOpcode (BitVec.ofNat 16 opcode.toNat)) := by
  rw [BitVec.ofNat_toNat]
  rfl

theorem exec_invokevirtual (s : State) : exec .invokevirtual s = unsupported 0xB6 s := rfl

theorem exec_ireturn (s : State) : exec .ireturn s = unsupported 0xAC s := rfl

theorem exec_unlisted (opcode : Byte) (s : State) :
    exec (.unlisted opcode) s = unsupported opcode s := rfl

end Sys2Proof.Machine

namespace Sys2Proof.Proofs

open Sys2Proof.Machine

/-- Settles O9: each of the bytes has format F1, and each meaning is the trap with its own byte. -/
theorem unimplementedInstructionsFault : Obligations.UnimplementedInstructionsFault :=
  fun s rest opcode =>
    ⟨⟨decode_f1 rfl rest, (exec_invokevirtual s).trans (unsupported_eq_faulted 0xB6 s)⟩,
      ⟨decode_f1 rfl rest, (exec_ireturn s).trans (unsupported_eq_faulted 0xAC s)⟩,
      fun h => decode_f1 (formatOf_unlisted h) rest,
      (exec_unlisted opcode s).trans (unsupported_eq_faulted opcode s)⟩

end Sys2Proof.Proofs
end

section
/-! PROOFS. The exceptions (60_exceptions.md R94 to R104): what a step that faults has found, the
fault each failed check takes, and the order of the checks; and that a fault ends the run. -/

namespace Sys2Proof

open Sys2Proof.Claims

/-! ### The opcodes that ask for operand bytes -/

/-- An opcode whose format is not F1 is in the lists of R56 for F2 and F3. -/
theorem mem_opcodes_of_formatOf {opcode : Byte} (h : ∀ i, formatOf opcode ≠ .f1 i) :
    opcode ∈ opcodesF2 ∨ opcode ∈ opcodesF3 := by
  rcases formatOf_named_or_unlisted opcode with hnamed | ⟨-, hf⟩
  · rcases namedOpcodes_formats opcode hnamed with h1 | h2 | h3 | rfl | rfl
    · obtain ⟨i, hf⟩ := formatOf_of_mem_opcodesF1 h1
      exact absurd hf (h i)
    · exact .inl h2
    · exact .inr h3
    · exact absurd rfl (h .ireturn)
    · exact absurd rfl (h .invokevirtual)
  · exact absurd hf (h _)

theorem mem_opcodesF2_of_formatOf {opcode : Byte} {make : Byte → Instr}
    (h : formatOf opcode = .f2 make) : opcode ∈ opcodesF2 := by
  rcases mem_opcodes_of_formatOf fun _ hf => nomatch h.symm.trans hf with h2 | h3
  · exact h2
  · obtain ⟨_, hf⟩ := formatOf_of_mem_opcodesF3 h3
    cases h.symm.trans hf

theorem mem_opcodesF3_of_formatOf {opcode : Byte} {make : Byte → Byte → Instr}
    (h : formatOf opcode = .f3 make) : opcode ∈ opcodesF3 := by
  rcases mem_opcodes_of_formatOf fun _ hf => nomatch h.symm.trans hf with h2 | h3
  · obtain ⟨_, hf⟩ := formatOf_of_mem_opcodesF2 h2
    cases h.symm.trans hf
  · exact h3

/-- The converse of `decode_cut_off`: operand bytes are missing only after an opcode of two or three
bytes, and the bytes present and those missing make up its length (R51). -/
theorem decode_missingOperands {bytes : List Byte} {n : Nat}
    (h : decode bytes = .error (.missingOperands n)) :
    ∃ opcode tail len, bytes = opcode :: tail ∧
      (opcode ∈ opcodesF2 ∧ len = 2 ∨ opcode ∈ opcodesF3 ∧ len = 3) ∧
      (opcode :: tail).length + n = len ∧ 0 < n := by
  obtain ⟨-, he⟩ | ⟨opcode, ⟨_, hb, hf, he⟩ | ⟨_, hb, hf, he⟩ | ⟨_, b1, hb, hf, he⟩⟩ :=
    decode_error h <;> cases he
  · exact ⟨opcode, [], 2, hb, .inl ⟨mem_opcodesF2_of_formatOf hf, rfl⟩, rfl, by decide⟩
  · exact ⟨opcode, [], 3, hb, .inr ⟨mem_opcodesF3_of_formatOf hf, rfl⟩, rfl, by decide⟩
  · exact ⟨opcode, [b1], 3, hb, .inr ⟨mem_opcodesF3_of_formatOf hf, rfl⟩, rfl, by decide⟩

end Sys2Proof

namespace Sys2Proof.Machine

open Sys2Proof.Claims

/-! ### The bytes at `pc` -/

/-- The converse of `drop_of_byte`. -/
theorem byte_of_drop {s : State} {opcode : Byte} {tail : List Byte}
    (h : s.code.drop s.pc = opcode :: tail) :
    s.code[s.pc]? = some opcode ∧ s.pc + (opcode :: tail).length = s.code.length := by
  refine ⟨by rw [← List.head?_drop, h, List.head?_cons], ?_⟩
  have hlen := congrArg List.length h
  rw [List.length_drop, List.length_cons] at hlen
  rw [List.length_cons]
  omega

/-- A fetch finds operand bytes missing under the condition of OPERAND_FETCH, in the number that its
FINFO gives (R96). -/
theorem fetch_missingOperands {s : State} {n : Nat}
    (h : s.fetch = .error (.missingOperands n)) :
    ∃ opcode len, s.code[s.pc]? = some opcode ∧
      (opcode ∈ opcodesF2 ∧ len = 2 ∨ opcode ∈ opcodesF3 ∧ len = 3) ∧
      s.code.length < s.pc + len ∧ n = s.pc + len - s.code.length := by
  obtain ⟨opcode, tail, len, hdrop, hop, hlen, hpos⟩ := decode_missingOperands h
  obtain ⟨hbyte, hend⟩ := byte_of_drop hdrop
  exact ⟨opcode, len, hbyte, hop, by omega, by omega⟩

/-- An instruction that the end of the stream cuts off is not decoded (R51). -/
theorem fetch_ne_ok_of_cut_off {s : State} {opcode : Byte} {len : Nat}
    (hop : s.code[s.pc]? = some opcode)
    (hlen : opcode ∈ opcodesF2 ∧ len = 2 ∨ opcode ∈ opcodesF3 ∧ len = 3)
    (hshort : s.code.length < s.pc + len) (found : Instr × List Byte) : s.fetch ≠ .ok found := by
  obtain ⟨tail, hdrop, htail⟩ := drop_of_byte hop
  have hcut : (opcode :: tail).length < len := by rw [List.length_cons]; omega
  rw [State.fetch_eq, hdrop, decode_cut_off hlen hcut]
  nofun

/-! ### What a faulting step has found -/

/-- The five bits of CAUSE tell the causes apart (R94, R96). -/
theorem FaultCause.word_injective {f g : FaultCause} (h : f.word = g.word) : f = g := by
  revert h
  cases f <;> cases g <;> decide

/-- A fault raised by an instruction is one it can raise, under that fault's condition. -/
theorem execOn_raises {c : Config} {i : Instr} {s t : State} (h : execOn c i s = .next t)
    (hs : s.status ≠ .fault) (ht : t.status = .fault) :
    ∃ f info, canRaise i f = true ∧ RaisesWhen c i s f info ∧ t = s.raise f info := by
  rcases execOn_next h with he | hf
  · obtain ⟨-, -, hst, -⟩ := he.same_else
    exact absurd (hst.symm.trans ht) hs
  · exact hf

/-- The same, by the cause recorded. -/
theorem execOn_raises_cause {c : Config} {i : Instr} {s t : State} {f : FaultCause}
    (h : execOn c i s = .next t) (hs : s.status ≠ .fault) (ht : t.status = .fault)
    (hc : t.cause = f.word) : canRaise i f = true ∧ ∃ info, RaisesWhen c i s f info := by
  obtain ⟨g, info, hg, hwhen, rfl⟩ := execOn_raises h hs ht
  obtain rfl := FaultCause.word_injective hc
  exact ⟨hg, info, hwhen⟩

/-- A step that faults found operand bytes missing, or fetched an instruction that raised a fault it
can raise, under that fault's condition. -/
theorem stepOn_raises {c : Config} {s t : State} (h : stepOn c s = .next t)
    (ht : t.status = .fault) :
    (∃ n, s.fetch = .error (.missingOperands n) ∧
        t = s.raise .operandFetch (BitVec.ofNat 16 n)) ∨
      ∃ i rest f info, s.fetch = .ok (i, rest) ∧ canRaise i f = true ∧
        RaisesWhen c i s f info ∧ t = s.raise f info := by
  obtain ⟨hr, hmissing | ⟨i, rest, u, hf, hx, rfl⟩⟩ := stepOn_next h
  · exact .inl hmissing
  · have hu : u.status = .fault := by
      rw [State.finish_status] at ht
      split at ht
      · cases ht
      · exact ht
    obtain ⟨f, info, hcan, hwhen, rfl⟩ := execOn_raises hx (by simp [hr]) hu
    exact .inr ⟨i, rest, f, info, hf, hcan, hwhen, State.finish_raise s f info⟩

/-- The causes an instruction can raise are those R102 gives it. -/
theorem canRaise_mem_mayRaise {i : Instr} {f : FaultCause} (h : canRaise i f = true) :
    f.word ∈ mayRaise i := by
  cases i <;> simp only [canRaise, Bool.or_eq_true, beq_iff_eq] at h
  case nop => cases h
  case bipush | iinc | pop | swap | iadd | isub | iand | ior | goto | ireturn | invokevirtual |
      unlisted =>
    subst h
    exact List.mem_singleton.mpr rfl
  case ldcW | iload | istore | dup | ifeq | iflt | ifIcmpeq =>
    obtain rfl | rfl := h <;> exact List.mem_pair.mpr (by decide)

/-! ### The rule behind a fault of this unit -/

theorem needs_eq_pops (i : Instr) : needs i = pops i := by
  cases i <;> rfl

/-- A branch the model takes is one whose condition holds (R83, R85 to R88). -/
theorem Takes.taken {i : Instr} {s : State} {offset16 : Half} (h : Takes i s offset16) :
    branchOf i = some offset16 ∧ Taken s i := by
  obtain rfl | ⟨a, below, hs, ⟨rfl, ht⟩ | ⟨rfl, ht⟩⟩ | ⟨a, b, below, hs, rfl, ht⟩ := h
  · exact ⟨rfl, trivial⟩
  · exact ⟨rfl, a, below, hs, (zeroTest_iff_toInt a).mp ht⟩
  · exact ⟨rfl, a, below, hs, (negTest_iff a).mp ht⟩
  · exact ⟨rfl, a, b, below, hs, (eqTest_iff a b).mp ht⟩

/-- The byte that an opcode with no semantics records in FINFO is the one at `pc` (R97). -/
theorem byte_of_fetch_single {s : State} {i : Instr} {rest : List Byte} {opcode : Byte}
    (hf : s.fetch = .ok (i, rest)) (he : encode i = [opcode]) : s.code[s.pc]? = some opcode := by
  have hdrop : s.code.drop s.pc = encode i ++ rest := decode_ok_encode hf
  rw [he] at hdrop
  exact (byte_of_drop hdrop).1

/-- On this unit a fault of the instruction fetched is by R95, R96 or R97: every slot exists and the
stack is unbounded. -/
theorem RaisesWhen.justified {s : State} {i : Instr} {rest : List Byte} {f : FaultCause}
    {info : Half} (hf : s.fetch = .ok (i, rest)) (h : RaisesWhen Config.unit i s f info) :
    Justified s f.word info := by
  cases f with
  | stackUnderflow =>
    obtain ⟨hshort, rfl⟩ := h
    exact .inr ⟨i, rest, hf, .inl ⟨rfl, needs_eq_pops i ▸ hshort, rfl⟩⟩
  | operandFetch => exact h.elim
  | branchTarget =>
    obtain ⟨htakes, hillegal⟩ := h
    obtain ⟨hbranch, htaken⟩ := htakes.taken
    have hnot : ¬ LegalTarget s info := by
      simp only [LegalTarget, target, State.codeLen] at hillegal ⊢
      omega
    exact .inr ⟨i, rest, hf, .inr (.inl ⟨rfl, hbranch, htaken, hnot⟩)⟩
  | localIndex =>
    obtain ⟨x, -, hx, -⟩ := h
    exact absurd (x.isLt.trans (by decide)) (Nat.not_lt.mpr hx)
  | constIndex =>
    obtain ⟨hi, hk⟩ := h
    exact .inr ⟨i, rest, hf, .inr (.inr (.inl ⟨rfl, hi, hk⟩))⟩
  | unsupportedOpcode =>
    obtain ⟨opcode, hi, rfl⟩ := h
    have hrule : (i = .ireturn ∨ i = .invokevirtual ∨ ∃ b, i = .unlisted b) ∧
        encode i = [opcode] := by
      obtain ⟨rfl, rfl⟩ | ⟨rfl, rfl⟩ | rfl := hi <;> simp [encode]
    exact .inr ⟨i, rest, hf, .inr (.inr (.inr ⟨rfl, hrule.1, opcode,
      byte_of_fetch_single hf hrule.2, (BitVec.ofNat_toNat 16 opcode).symm⟩))⟩
  | stackOverflow =>
    obtain ⟨hfull, -⟩ := h
    cases hfull

/-! ### The faults the checks take -/

/-- `need(1)` underflows with the depth it found (R95). -/
theorem needOne_short {s : State} (h : s.sp < 1) (k : Byte → List Byte → Result) :
    needOne s k = trap s .stackUnderflow (BitVec.ofNat 16 s.sp) := by
  have hs : s.stack = [] := List.length_eq_zero_iff.mp (Nat.lt_one_iff.mp h)
  rw [needOne_nil hs, State.sp, hs]
  rfl

/-- The step of an opcode with no semantics is the trap of R97. -/
theorem step_unsupported {s : State} {i : Instr} {rest : List Byte} {opcode : Byte}
    (hr : s.status = .running) (hf : s.fetch = .ok (i, rest))
    (he : exec i s = unsupported opcode s) :
    step s = .next (faulted s unsupportedOpcode (BitVec.ofNat 16 opcode.toNat)) := by
  rw [← unsupported_eq_faulted, step_of_fetch hr hf he, State.finish_raise]
  rfl

/-! ### The end of a run by a fault -/

theorem step_ne_next_of_fault {s : State} (hs : s.status = .fault) (t : State) :
    step s ≠ .next t := by
  intro h
  cases hs.symm.trans (step_next h).1

/-- No step is enabled in the FAULT state (R103). -/
theorem Reaches.eq_of_fault {s t : State} (h : Reaches s t) (hs : s.status = .fault) : t = s := by
  induction h with
  | refl => rfl
  | tail _ hstep ih => exact absurd (ih ▸ hstep) (step_ne_next_of_fault hs _)

theorem State.loaded_status_ne_fault (cp code : List Byte) :
    (State.loaded cp code).status ≠ .fault := by
  unfold State.loaded
  split <;> nofun

theorem State.result_of_done {s : State} (h : s.status = .done) : s.result = some s.stack := by
  simp only [State.result, h]

theorem State.result_of_not_done {s : State} (h : s.status ≠ .done) : s.result = none := by
  unfold State.result
  split
  · exact absurd ‹_› h
  · rfl
  · rfl

end Sys2Proof.Machine

namespace Sys2Proof.Proofs

open Sys2Proof.Machine Sys2Proof.Claims

/-- Settles O8: each of the bytes is decoded alone, and its meaning is the trap with that byte. -/
theorem unsupportedOpcodeRaisedAtDecode : Obligations.UnsupportedOpcodeRaisedAtDecode := by
  intro s opcode hr hop hcase
  obtain ⟨tail, hdrop, -⟩ := drop_of_byte hop
  have hfetch {i : Instr} (hi : formatOf opcode = .f1 i) : s.fetch = .ok (i, tail) := by
    rw [State.fetch_eq, hdrop, decode_f1 hi]
  obtain rfl | rfl | hunlisted := hcase
  · exact step_unsupported hr (hfetch rfl) (exec_invokevirtual s)
  · exact step_unsupported hr (hfetch rfl) (exec_ireturn s)
  · exact step_unsupported hr (hfetch (formatOf_unlisted hunlisted)) (exec_unlisted opcode s)

/-- Settles O11: a step is taken from RUNNING only, and a load gives the fault registers their reset
value. -/
theorem faultIsTerminalUntilReset : Obligations.FaultIsTerminalUntilReset := by
  refine ⟨fun _ t hs => step_ne_next_of_fault hs t, fun _ _ hs h => h.eq_of_fault hs,
    fun image t h => ?_⟩
  obtain ⟨n, rest, -, -, -, rfl⟩ := State.loadOn_next h
  exact ⟨State.loaded_status_ne_fault _ _, rfl, rfl, rfl⟩

/-- Settles O12: the fault entry is one operation, and each place that takes it has checked the
condition of its rule. -/
theorem faultEntryIsPreciseAndJustified : Obligations.FaultEntryIsPreciseAndJustified := by
  intro s t h ht
  obtain ⟨n, hf, rfl⟩ | ⟨i, rest, f, info, hf, -, hwhen, rfl⟩ :=
    stepOn_raises ((stepOn_unit s).trans h) ht
  · obtain ⟨opcode, len, hop, hlen, hshort, rfl⟩ := fetch_missingOperands hf
    exact ⟨rfl, .inl ⟨rfl, opcode, len, hop, hlen, hshort, rfl⟩⟩
  · exact ⟨rfl, hwhen.justified hf⟩

/-- Settles O14: the check of the stack is the first of each of these meanings. -/
theorem shallowStackRaisesUnderflow : Obligations.ShallowStackRaisesUnderflow := by
  intro s i k hcase hshort
  obtain ⟨rfl, hi⟩ | ⟨rfl, hi⟩ := hcase
  · obtain rfl | rfl | ⟨_, rfl⟩ | ⟨_, rfl⟩ | ⟨_, rfl⟩ := hi <;> exact needOne_short hshort _
  · obtain rfl | rfl | rfl | rfl | rfl | ⟨_, rfl⟩ := hi <;> exact needTwo_short hshort _

/-- Settles O15: each kind is the failure of one check, and an index byte is below 256. -/
theorem outOfBoundsAccessKinds : Obligations.OutOfBoundsAccessKinds := by
  refine ⟨cutOffOperandsRaiseOperandFetch, fun s o hillegal => ?_,
    fun c s i n => ⟨fun hslot => ?_, fun hlarge hs t hx ht hc => ?_⟩,
    fun s k hk => runLdcW_beyond hk Config.unit⟩
  · have htarget := branchTo_of_not_legalTarget hillegal
    refine ⟨htarget s.stack, fun a below => ⟨fun hs => ?_, fun hs hneg => ?_, fun hs => ?_⟩⟩
    · exact (exec_taken (exec_ifeq hs o) rfl).trans (htarget below)
    · exact (exec_taken (exec_iflt hs o) ((negTest_iff a).mpr hneg)).trans (htarget below)
    · exact (exec_taken (exec_ifIcmpeq hs o) ((eqTest_iff a a).mpr rfl)).trans (htarget below)
  · refine ⟨slot_bad hslot s _, slot_bad hslot s _, fun hne => ?_⟩
    obtain ⟨a, below, hs⟩ := List.exists_cons_of_ne_nil hne
    exact (runIstore_cons hs c i).trans (slot_bad hslot s _)
  · have hnever {j : Instr} (hj : execOn c j s = .next t) : False := by
      obtain ⟨-, _, x, -, hx, -⟩ := execOn_raises_cause (f := .localIndex) hj hs ht hc
      exact Nat.not_lt.mpr hx (x.isLt.trans_le hlarge)
    obtain hx | hx | hx := hx <;> exact hnever hx

/-- Settles O16: the room is the last check of the four, the five have none, and an unbounded stack
always has room. -/
theorem fullFiniteStackOverflows : Obligations.FullFiniteStackOverflows := by
  refine ⟨fun c s n k hfull => ⟨room_at_depth hfull _, fun hne => ?_, fun hk => ?_, fun hslot => ?_⟩,
    fun c s t i hi hx ht hs hc => ?_⟩
  · obtain ⟨a, below, hs⟩ := List.exists_cons_of_ne_nil hne
    exact (runDup_cons hs c).trans (room_at_depth hfull _)
  · exact (runLdcW_within hk c).trans (room_at_depth hfull _)
  · exact (slot_ok hslot s _).trans (room_at_depth hfull _)
  · obtain ⟨hcan, _, hfull, -⟩ := execOn_raises_cause (f := .stackOverflow) hx hs ht hc
    obtain rfl | rfl | rfl | rfl | rfl | hunbounded := hi
    case inr.inr.inr.inr.inr => cases hfull.symm.trans (fits_unbounded hunbounded s.sp 1)
    all_goals cases hcan

/-- Settles O18: the fetch comes before the meaning, and the checks of a meaning stand in the order
of R101. -/
theorem faultPriority : Obligations.FaultPriority := by
  refine ⟨unsupportedOpcodeRaisedAtDecode, fun c s opcode len hr hop hlen hshort => ?_,
    fun c s i o hs => ⟨needOne_nil hs _, needOne_nil hs _, needOne_nil hs _, needOne_nil hs _⟩,
    fun c s o hshort => needTwo_short hshort _,
    fun c s i k => ⟨fun hk => runLdcW_beyond hk c, fun hslot => slot_bad hslot s _⟩⟩
  have hunit : stepOn c s = stepOn Config.unit s :=
    stepOn_congr fun i rest hf => absurd hf (fetch_ne_ok_of_cut_off hop hlen hshort _)
  rw [hunit, stepOn_unit]
  exact cutOffOperandsRaiseOperandFetch s opcode len hr hop hlen hshort

/-- Settles O19: the table is that of the causes a meaning can raise, and the meaning of an opcode
with no semantics is the trap alone. -/
theorem faultsEachInstructionCanRaise : Obligations.FaultsEachInstructionCanRaise := by
  refine ⟨fun c s t i hr hx ht => ?_, fun c s t h ht => ?_, fun c s t i hi hx => ?_⟩
  · obtain ⟨f, info, hcan, -, rfl⟩ := execOn_raises hx (by simp [hr]) ht
    exact canRaise_mem_mayRaise hcan
  · obtain ⟨n, hf, rfl⟩ | ⟨i, rest, f, info, hf, hcan, -, rfl⟩ := stepOn_raises h ht
    · obtain ⟨opcode, len, hop, hlen, -⟩ := fetch_missingOperands hf
      exact .inl ⟨rfl, opcode, hop, hlen.imp And.left And.left⟩
    · exact .inr ⟨i, rest, hf, canRaise_mem_mayRaise hcan⟩
  · obtain rfl | rfl | ⟨b, rfl⟩ := hi <;> exact trap_next hx ▸ State.raise_status s _ _

/-- Settles O59: the stack is held top first, so its `k`-th entry is the `k`-th below the top. -/
theorem resultIsStackTopFirst : Obligations.ResultIsStackTopFirst := by
  refine fun s => ⟨fun hdone => ⟨s.stack, State.result_of_done hdone, rfl, fun k hk => ?_⟩,
    State.result_of_not_done⟩
  rw [State.stackEntry, List.getElem?_reverse (by omega)]
  congr 1
  omega

end Sys2Proof.Proofs
end

section
/-! PROOFS. Reset and the end of a run (70_reset_and_hazards.md R112 to R117): which images the load
refuses and which it accepts, and that the invariant holds along a run, where it ties DONE to the end
of `CODE`. -/

namespace Sys2Proof.Machine

/-- An image is cut short exactly when fewer bytes follow byte 0 than it declares (R112), whatever
the parameters. -/
theorem State.loadOn_truncated_iff (c : Config) (n : Byte) (rest : List Byte) :
    State.loadOn c (n :: rest) = .refused .truncatedInput ↔ rest.length < n.toNat := by
  refine ⟨fun h => ?_, fun hshort => if_pos hshort⟩
  by_contra hlong
  rw [State.loadOn, if_neg hlong] at h
  split at h <;> cases h

/-- An image with its pool is loaded exactly when its stream is within the limit of PC_WIDTH
(R114). -/
theorem State.loadOn_accepts_iff {c : Config} {n : Byte} {rest : List Byte}
    (hn : n.toNat ≤ rest.length) :
    (∃ t, State.loadOn c (n :: rest) = .next t) ↔ rest.length - n.toNat ≤ c.maxCodeLen := by
  rw [← List.length_drop]
  refine ⟨fun ⟨t, h⟩ => ?_, fun hc => ⟨_, State.loadOn_ok hn hc⟩⟩
  obtain ⟨_, _, himage, -, hc, -⟩ := State.loadOn_next h
  cases himage
  exact hc

/-- The invariant holds of every state that a run from it reaches. -/
theorem Reaches.inv {s t : State} (h : Reaches s t) (hs : s.Inv) : t.Inv := by
  induction h with
  | refl => exact hs
  | tail _ hstep ih => exact State.Inv.step ih hstep

/-- A RUNNING unit and one in FAULT have `pc` on an opcode of `CODE`, so DONE is exactly its end. -/
theorem State.StatusAgrees.done_iff {s : State} (h : s.StatusAgrees) :
    s.status = .done ↔ s.pc = s.code.length := by
  cases hst : s.status with
  | running => simpa using ((State.statusAgrees_running hst).mp h).1.ne
  | done => simpa using ((State.statusAgrees_done hst).mp h).1
  | fault => simpa using ((State.statusAgrees_fault hst).mp h).1.ne

end Sys2Proof.Machine

namespace Sys2Proof.Proofs

open Sys2Proof.Machine

/-- Settles O51: the image is one byte longer than what follows its byte 0. -/
theorem shortImagesAreTruncatedInput : Obligations.ShortImagesAreTruncatedInput := by
  refine ⟨rfl, fun n rest => (State.loadOn_truncated_iff Config.unit n rest).trans ?_⟩
  rw [List.length_cons]
  omega

/-- Settles O52: the one limit on the stream is that of PC_WIDTH, 65535 bytes at a width of 16. -/
theorem loadValidatesNothingElse : Obligations.LoadValidatesNothingElse :=
  ⟨fun c _ _ hn => (State.loadOn_accepts_iff hn).trans (Config.le_maxCodeLen c _),
    fun _ _ hn => State.loadOn_accepts_iff (c := Config.unit) hn⟩

/-- Settles O58: the load establishes the invariant and every step keeps it, and under it DONE is
the end of `CODE`. -/
theorem doneExactlyAtEndOfStream : Obligations.DoneExactlyAtEndOfStream := by
  refine ⟨fun _ _ h => (State.InvOn.of_loadOn h).status_agrees.done_iff, fun s t hs h => ?_,
    fun _ _ hs h => (h.inv hs).status_agrees.done_iff⟩
  have hdone := (State.Inv.step hs h).status_agrees.done_iff
  exact ⟨fun ht => ⟨hdone.mp ht, by simp [ht]⟩, fun ⟨hpc, _⟩ => hdone.mpr hpc⟩

end Sys2Proof.Proofs
end
